-- ==== Sys2Proof/Word.lean ====
section
/-!
DEFINITION. The data word of `bytecode_interpreter` and its register indices.
Rules: 00_scope.md R7 (WORD_BITS, NUM_REGS), R8; 10_state.md R20.
-/

namespace Sys2Proof

/-- A byte: the only width that memory, registers and immediates have (00_scope.md R7, R8). -/
abbrev Byte := BitVec 8

/-- The index of a register, 0 to 7 (10_state.md R20). -/
abbrev RegIndex := Fin 8

end Sys2Proof
end

