-- ==== Sys2Proof/Config.lean ====
section
/-!
DEFINITION. The parameters of the block that the spec leaves open (00_scope.md R7): the two that are
plain data for a machine, `CMP_FLAG_MODE` and `OPCODE_MAP`. The third, `MEM_INIT`, is the memory a run
is launched from (`Sys2Proof.Machine.resetWith`). Their default VALUES stand in `Sys2Proof/Decode.lean` and
`Sys2Proof/Machine/Defaults.lean`.
-/

namespace Sys2Proof

/-- `CMP_FLAG_MODE` (00_scope.md R7; 41_alu.md R103, R104). -/
inductive CmpFlagMode where
  /-- EXCLUSIVE, the normative mode: exactly one of E, G, L after a CMP. -/
  | exclusive
  /-- REFERENCE_OVERLAP, the optional compatibility mode: "greater" also sets E. -/
  | referenceOverlap
deriving DecidableEq, Repr

/-- `OPCODE_MAP`: the opcode bytes of the six mnemonics to which the source gives none
(30_encoding.md R66, R67; 92_eei_decisions.md D2). -/
structure OpcodeMap where
  push : Byte
  pop  : Byte
  cmp  : Byte
  jmp  : Byte
  jeq  : Byte
  jne  : Byte
deriving DecidableEq, Repr

/-- The parameters a machine is built with. No step changes them. -/
structure Params where
  opcodes : OpcodeMap
  cmpMode : CmpFlagMode
deriving DecidableEq, Repr

end Sys2Proof
end

