-- ==== Sys2Proof/Syntax.lean ====
section
/-!
DEFINITION. The ten mnemonics, the four instruction formats, and the instructions.
An instruction carries its operand BYTES as they stand in memory: a register operand is the whole byte,
not masked (30_encoding.md R62), and a byte of 8 or more is a legal thing to fetch, on which the
instruction faults (40_dispatch.md R84).
-/

namespace Sys2Proof

/-- The mnemonics of the opcode map (30_encoding.md R66). -/
inductive Mnemonic where
  | hlt | ldi | prn | mul | push | pop | cmp | jmp | jeq | jne
deriving DecidableEq, Repr

/-- The instruction formats (30_encoding.md R60). -/
inductive Format where
  /-- opcode -/
  | f0
  /-- opcode, register a -/
  | f1r
  /-- opcode, register a, register b -/
  | f2rr
  /-- opcode, register a, immediate -/
  | f2ri
deriving DecidableEq, Repr

/-- The instructions, one constructor per row of the opcode table. -/
inductive Instr where
  /-- HLT (44_control.md R143). -/
  | hlt
  /-- LDI Ra,imm (42_load_output.md R121). -/
  | ldi (a imm : Byte)
  /-- PRN Ra (42_load_output.md R122). -/
  | prn (a : Byte)
  /-- MUL Ra,Rb (41_alu.md R105). -/
  | mul (a b : Byte)
  /-- PUSH Ra (43_stack.md R130). -/
  | push (a : Byte)
  /-- POP Ra (43_stack.md R131). -/
  | pop (a : Byte)
  /-- CMP Ra,Rb (41_alu.md R106). -/
  | cmp (a b : Byte)
  /-- JMP Ra (44_control.md R140). -/
  | jmp (a : Byte)
  /-- JEQ Ra (44_control.md R141). -/
  | jeq (a : Byte)
  /-- JNE Ra (44_control.md R142). -/
  | jne (a : Byte)
deriving DecidableEq, Repr

end Sys2Proof
end

