-- ==== Sys2Proof/Decode.lean ====
section
/-!
DEFINITION. The opcode map, the decoder and the encoder (30_encoding.md; 40_dispatch.md R81, R83).
The decoder is total: it refuses, by name, an opcode byte that is in no row of the map and an instruction
whose bytes are not all there.
-/

namespace Sys2Proof

/-! ### The opcode map -/

/-- The opcode of HLT (30_encoding.md R66, source §8). -/
def opcodeHlt : Byte := 0x01

/-- The opcode of LDI (30_encoding.md R66, source §8). -/
def opcodeLdi : Byte := 0x82

/-- The opcode of PRN (30_encoding.md R66, source §8). -/
def opcodePrn : Byte := 0x47

/-- The opcode of MUL (30_encoding.md R66, source §8). -/
def opcodeMul : Byte := 0xA2

/-- The spec's default of `OPCODE_MAP` (30_encoding.md R66). PRESUMED by the spec itself (its general
knowledge of the LS-8); unsafe where a claim about bytes names no map. Log entry 2. -/
def defaultOpcodeMap : OpcodeMap :=
  { push := 0x45, pop := 0x46, cmp := 0xA7, jmp := 0x54, jeq := 0x55, jne := 0x56 }

/-- The opcode byte of a mnemonic: the four fixed values and the six of `OPCODE_MAP`
(30_encoding.md R66, R67). -/
def opcodeOf (m : OpcodeMap) : Mnemonic → Byte
  | .hlt  => opcodeHlt
  | .ldi  => opcodeLdi
  | .prn  => opcodePrn
  | .mul  => opcodeMul
  | .push => m.push
  | .pop  => m.pop
  | .cmp  => m.cmp
  | .jmp  => m.jmp
  | .jeq  => m.jeq
  | .jne  => m.jne

/-- The ten mnemonics, in the order of the opcode table. -/
def allMnemonics : List Mnemonic :=
  [.hlt, .ldi, .prn, .mul, .push, .pop, .cmp, .jmp, .jeq, .jne]

/-- `decode(op)` of 40_dispatch.md R81: the mnemonic whose opcode byte is `op`, looked up over the WHOLE
byte (30_encoding.md R61); `none` for an illegal byte (R68). -/
def decodeOpcode (m : OpcodeMap) (op : Byte) : Option Mnemonic :=
  allMnemonics.find? fun n => opcodeOf m n == op

/-! ### Formats and widths -/

/-- The format of each mnemonic, fixed whatever its byte value (30_encoding.md R66, R67). -/
def formatOf : Mnemonic → Format
  | .hlt => .f0
  | .ldi => .f2ri
  | .mul | .cmp => .f2rr
  | .prn | .push | .pop | .jmp | .jeq | .jne => .f1r

/-- How many operand bytes a format has (30_encoding.md R60). -/
def operandCount : Format → Nat
  | .f0 => 0
  | .f1r => 1
  | .f2rr | .f2ri => 2

/-- `width(ins)`: the operand count plus one (30_encoding.md R64, R65). -/
def width (n : Mnemonic) : Nat := operandCount (formatOf n) + 1

/-- The mnemonic of an instruction. -/
def mnemonicOf : Instr → Mnemonic
  | .hlt => .hlt
  | .ldi _ _ => .ldi
  | .prn _ => .prn
  | .mul _ _ => .mul
  | .push _ => .push
  | .pop _ => .pop
  | .cmp _ _ => .cmp
  | .jmp _ => .jmp
  | .jeq _ => .jeq
  | .jne _ => .jne

/-- `regops(ins)` of 40_dispatch.md R81: the operand bytes that name a register, a before b. -/
def registerOperands : Instr → List Byte
  | .hlt => []
  | .ldi a _ => [a]
  | .prn a => [a]
  | .mul a b => [a, b]
  | .push a => [a]
  | .pop a => [a]
  | .cmp a b => [a, b]
  | .jmp a => [a]
  | .jeq a => [a]
  | .jne a => [a]

/-! ### Decoding -/

/-- Why the decoder gives no instruction. -/
inductive DecodeError where
  /-- The byte at this offset is not there; the opcode byte, if it was read before
  (40_dispatch.md R82, R83). -/
  | missingByte (offset : Nat) (opcode : Option Byte)
  /-- The opcode byte is in no row of the map (30_encoding.md R68). -/
  | unknownOpcode (opcode : Byte)
deriving DecidableEq, Repr

/-- Format F1R: read operand_a. -/
def readOperandA (op : Byte) (byteAt : Nat → Option Byte) (build : Byte → Instr) :
    Except DecodeError Instr :=
  match byteAt 1 with
  | none => .error (.missingByte 1 (some op))
  | some a => .ok (build a)

/-- Formats F2RR and F2RI: read operand_a, then operand_b. -/
def readOperandsAB (op : Byte) (byteAt : Nat → Option Byte) (build : Byte → Byte → Instr) :
    Except DecodeError Instr :=
  match byteAt 1 with
  | none => .error (.missingByte 1 (some op))
  | some a =>
    match byteAt 2 with
    | none => .error (.missingByte 2 (some op))
    | some b => .ok (build a b)

/-- Read the operand bytes of a mnemonic: exactly `width − 1` of them (40_dispatch.md R83). -/
def decodeOperands (op : Byte) (byteAt : Nat → Option Byte) : Mnemonic → Except DecodeError Instr
  | .hlt  => .ok .hlt
  | .ldi  => readOperandsAB op byteAt .ldi
  | .prn  => readOperandA op byteAt .prn
  | .mul  => readOperandsAB op byteAt .mul
  | .push => readOperandA op byteAt .push
  | .pop  => readOperandA op byteAt .pop
  | .cmp  => readOperandsAB op byteAt .cmp
  | .jmp  => readOperandA op byteAt .jmp
  | .jeq  => readOperandA op byteAt .jeq
  | .jne  => readOperandA op byteAt .jne

/-- Fetch and decode of 40_dispatch.md R81, over any source of bytes: `byteAt k` is the byte at offset `k`
from the opcode. The opcode first, then the operands the mnemonic has. -/
def decodeFrom (m : OpcodeMap) (byteAt : Nat → Option Byte) : Except DecodeError Instr :=
  match byteAt 0 with
  | none => .error (.missingByte 0 none)
  | some op =>
    match decodeOpcode m op with
    | none => .error (.unknownOpcode op)
    | some n => decodeOperands op byteAt n

/-- Decode the instruction at the head of a list of bytes, and give the bytes after it. -/
def decode (m : OpcodeMap) (bytes : List Byte) : Except DecodeError (Instr × List Byte) :=
  match decodeFrom m fun k => bytes[k]? with
  | .ok i => .ok (i, bytes.drop (width (mnemonicOf i)))
  | .error e => .error e

/-! ### Encoding -/

/-- The operand bytes of an instruction, operand_a first (30_encoding.md R60). -/
def operandBytes : Instr → List Byte
  | .hlt => []
  | .ldi a imm => [a, imm]
  | .prn a => [a]
  | .mul a b => [a, b]
  | .push a => [a]
  | .pop a => [a]
  | .cmp a b => [a, b]
  | .jmp a => [a]
  | .jeq a => [a]
  | .jne a => [a]

/-- The bytes of an instruction in increasing address order (30_encoding.md R60, R69). -/
def encode (m : OpcodeMap) (i : Instr) : List Byte :=
  opcodeOf m (mnemonicOf i) :: operandBytes i

/-! ### Instructions numbered as the opcode table numbers them -/

/-- The bytes of a table word: bits 7..0 are the first byte, bits 15..8 the second, bits 23..16 the third
(the longest instruction has three); bits at or above `nbits` are 0. -/
def tableBytes (nbits w : Nat) : List Byte :=
  [BitVec.ofNat 8 (w % 2 ^ nbits), BitVec.ofNat 8 (w % 2 ^ nbits / 256),
    BitVec.ofNat 8 (w % 2 ^ nbits / 65536)]

/-- The instruction that the decoder reads from a table word, under the default opcode map (the map the table
was written for). -/
def decodeTableWord (nbits w : Nat) : Option Instr :=
  match decode defaultOpcodeMap (tableBytes nbits w) with
  | .ok (i, _) => some i
  | .error _ => none

end Sys2Proof
end

