-- ==== Sys2Proof/Machine/Defaults.lean ====
section
/-!
DEFINITION. The values that the machine is reset with (00_scope.md R7; 10_state.md R33), and the byte that a memory
cell reads as when nothing has been stored there.
-/

namespace Sys2Proof.Machine

/-- `SP_RESET`: the reset value of R7 (00_scope.md R7; 10_state.md R33). -/
def spReset : Byte := 0xF4

/-- `FL_RESET` (00_scope.md R7). -/
def flReset : Byte := 0x00

/-- `PC_RESET` (00_scope.md R7). -/
def pcReset : Nat := 0

/-- The default of `CMP_FLAG_MODE`: EXCLUSIVE, the normative mode (00_scope.md R7; 41_alu.md R103). -/
def defaultCmpMode : CmpFlagMode := .exclusive

/-- The parameters of the machine right after reset: the spec's defaults (00_scope.md R7). Log entries 1 and 2. -/
def defaultParams : Params := { opcodes := defaultOpcodeMap, cmpMode := defaultCmpMode }

/-- What an address that memory does not list reads as: 0x00, the spec's own choice for simulation
(92_eei_decisions.md D3). DESIGN CHOICE; unsafe where a claim rests on `State.reset` reading 0. Log entry 3. -/
def unlistedByte : Byte := 0x00

end Sys2Proof.Machine
end

