-- ==== Sys2Proof/Machine/State.lean ====
section
/-!
DEFINITION. Everything the spec gives the machine to hold (10_state.md R20 to R33), as plain data, the two ways in
which a step can stop, and the state right after reset.
-/

namespace Sys2Proof.Machine

/-! ### The run status and the fault record -/

/-- The kinds of fault that arise inside the core (60_exceptions.md R160). -/
inductive FaultKind where
  | outOfBounds
  | unknownOpcode
  | unsupportedOperation
deriving DecidableEq, Repr

/-- The detail of a fault record (60_exceptions.md R161 to R164, R166; 20_memory.md R42). -/
inductive FaultDetail where
  /-- UnknownOpcode has no detail beside its opcode. -/
  | none
  /-- The memory address outside 0–255. -/
  | address (addr : Nat)
  /-- The value outside 0–255 of a memory write. -/
  | value (v : Nat)
  /-- The operand byte that names no register. -/
  | registerIndex (v : Byte)
  /-- The ALU operation that is not supported. -/
  | operation (name : String)
deriving DecidableEq, Repr

/-- The reason record of a fault (60_exceptions.md R166). -/
structure FaultRecord where
  kind   : FaultKind
  /-- The address of the faulting instruction. -/
  pc     : Nat
  /-- The opcode byte if it was fetched (R162). -/
  opcode : Option Byte
  detail : FaultDetail
deriving DecidableEq, Repr

/-- The run status (10_state.md R27). -/
inductive Status where
  | running
  | halted
  | faulted (reason : FaultRecord)
deriving DecidableEq, Repr

/-! ### Memory -/

/-- The 256 cells: (address, byte) pairs with strictly rising addresses, none of which lists the byte that an unlisted
address reads as. -/
abbrev Memory := List Host.Cell

/-- The canonical form of memory, with every address inside the address space (20_memory.md R40). -/
abbrev Memory.wf (m : Memory) : Prop :=
  m.Pairwise (fun x y => x.1 < y.1) ∧ ∀ c ∈ m, c.1 < 256 ∧ c.2 ≠ unlistedByte

/-! ### The state -/

/-- The state of the block. -/
structure State where
  /-- R0 to R7; R7 is the stack pointer (10_state.md R20, R21). -/
  regs   : Vector Byte 8
  /-- The program counter, a natural number that is never reduced modulo 256 (10_state.md R22). -/
  pc     : Nat
  /-- The flags register FL: bit 0 E, bit 1 G, bit 2 L (10_state.md R24). -/
  fl     : Byte
  /-- The run status (10_state.md R27). -/
  status : Status
  /-- The output channel, the oldest byte first (10_state.md R28). -/
  output : List Byte
  /-- Memory (10_state.md R29). -/
  mem    : Memory
  /-- The MODEL's own field: the parameters the machine was built with (00_scope.md R7). No step changes it.
  Log entry 1. -/
  params : Params
deriving DecidableEq, Repr

/-- Why NO STEP IS ENABLED. (A fault of the machine itself is not one of these: it is a next state whose status is
`faulted`.) -/
inductive Fault where
  /-- Raised by `step` in a state whose status is `halted`: terminal (40_dispatch.md R80). Safe: the hardware takes no step
  there either. -/
  | alreadyHalted
  /-- Raised by `step` in a state whose status is `faulted`: terminal (40_dispatch.md R80). Safe: the hardware takes no
  step there either. -/
  | alreadyFaulted
deriving DecidableEq, Repr

/-- Why an instruction has no meaning. -/
inductive Refusal where
  /-- Would be raised by an arm of `exec` whose instruction is not modelled. No arm raises it. Safe. -/
  | notModelled (mnemonic : String)
deriving DecidableEq, Repr

/-- The machine right after reset (10_state.md R33; 70_reset_and_hazards.md R190), with the default parameters
(00_scope.md R7) and no cell of memory written: every cell reads `unlistedByte` (log entry 3). -/
def State.reset : State :=
  { regs   := #v[0, 0, 0, 0, 0, 0, 0, spReset]
    pc     := pcReset
    fl     := flReset
    status := .running
    output := []
    mem    := []
    params := defaultParams }

end Sys2Proof.Machine
end

