-- ==== Sys2Proof/Machine/Flags.lean ====
section
/-!
DEFINITION. The flags register: what CMP computes in each `CMP_FLAG_MODE` (41_alu.md R103, R104), and the one bit that
JEQ and JNE read (44_control.md R141, R142).
-/

namespace Sys2Proof.Machine

/-- FL with only E set (10_state.md R24, bit 0). -/
def flagE : Byte := 0b00000001

/-- FL with only G set (10_state.md R24, bit 1). -/
def flagG : Byte := 0b00000010

/-- FL with only L set (10_state.md R24, bit 2). -/
def flagL : Byte := 0b00000100

/-- `compare(u, v)`, mode EXCLUSIVE, on unsigned values (41_alu.md R103). -/
def compareExclusive (u v : Byte) : Byte :=
  if v.toNat < u.toNat then flagG
  else if u.toNat < v.toNat then flagL
  else flagE

/-- `compare_ref(u, v)`, mode REFERENCE_OVERLAP: the `else` that sets E belongs to the less-than test alone
(41_alu.md R104). -/
def compareOverlap (u v : Byte) : Byte :=
  let r : Byte := if v.toNat < u.toNat then flagG else 0
  if u.toNat < v.toNat then r ||| flagL else r ||| flagE

/-- The whole new FL of a CMP in the given mode; the old FL plays no part. -/
def compareFlags : CmpFlagMode → Byte → Byte → Byte
  | .exclusive => compareExclusive
  | .referenceOverlap => compareOverlap

/-- FL[0], the only bit that an instruction reads (10_state.md R24). -/
def equalBit (fl : Byte) : Bool := fl.getLsbD 0

end Sys2Proof.Machine
end

