-- ==== Sys2Proof/Machine/Ops.lean ====
section
/-!
DEFINITION. The named operations over the state: the primitives of 00_scope.md R9, the program counter unit
(40_dispatch.md R86), taking a fault (60_exceptions.md R166) and committing a step (00_scope.md R10).
There is no return from a fault (60_exceptions.md R171), so there is no operation for one.
-/

namespace Sys2Proof.Machine

/-! ### Memory cells -/

/-- The byte a cell holds. -/
def Memory.get : Memory → Nat → Byte
  | [], _ => unlistedByte
  | c :: rest, a => if a = c.1 then c.2 else Memory.get rest a

/-- Memory with one cell changed, in canonical form again. -/
def Memory.set : Memory → Nat → Byte → Memory
  | [], a, v => if v = unlistedByte then [] else [(a, v)]
  | c :: rest, a, v =>
    if a < c.1 then
      if v = unlistedByte then c :: rest else (a, v) :: c :: rest
    else if a = c.1 then
      if v = unlistedByte then rest else (a, v) :: rest
    else c :: Memory.set rest a v

/-- The memory that holds `f a` at every address `a` of the address space. -/
def Memory.ofFn (f : Nat → Byte) : Memory :=
  (List.range 256).filterMap fun a => if f a = unlistedByte then none else some (a, f a)

/-- `MemRead(addr, 1)` (20_memory.md R41). -/
def memRead (m : Memory) (addr : Nat) : Except FaultDetail Byte :=
  if addr < 256 then .ok (m.get addr) else .error (.address addr)

/-- `MemWrite(addr, 1, v)` (20_memory.md R42): the address is checked, then the value, then one cell changes. -/
def memWrite (m : Memory) (addr v : Nat) : Except FaultDetail Memory :=
  if addr < 256 then
    if v < 256 then .ok (m.set addr (BitVec.ofNat 8 v)) else .error (.value v)
  else .error (.address addr)

/-! ### Registers, output, status -/

/-- `x[i]` (00_scope.md R9). -/
def reg (i : RegIndex) (s : State) : Byte := s.regs[i]

/-- `x[i] <- v` (00_scope.md R9). -/
def setReg (i : RegIndex) (v : Byte) (s : State) : State := { s with regs := s.regs.set i v }

/-- `FL <- v`: all 8 bits are written (00_scope.md R9). -/
def setFl (v : Byte) (s : State) : State := { s with fl := v }

/-- The state with another memory. -/
def setMem (m : Memory) (s : State) : State := { s with mem := m }

/-- `SP_INDEX`: the register that is the stack pointer (10_state.md R21). -/
def spIndex : RegIndex := 7

/-- `Emit(v)`: append a byte to the output channel; it never fails (42_load_output.md R122). -/
def emit (v : Byte) (s : State) : State := { s with output := s.output ++ [v] }

/-- `status <- Halted` (44_control.md R143). -/
def halt (s : State) : State := { s with status := .halted }

/-- The source's running flag: true exactly when the status is `Running` (10_state.md R27). -/
def runningFlag (s : State) : Bool := s.status == .running

/-! ### The program counter unit -/

/-- Advance: `pc <- pc + width(ins)`, a sum of naturals that is not reduced modulo 256 (40_dispatch.md R86). -/
def advance (n : Mnemonic) (s : State) : State := { s with pc := s.pc + width n }

/-- Load: `pc <- target`, a byte (40_dispatch.md R86). -/
def jumpTo (target : Byte) (s : State) : State := { s with pc := target.toNat }

/-! ### Faults -/

/-- The record of a memory access outside its range made by instruction `n`
(60_exceptions.md R162; 20_memory.md R42). -/
def memoryFault (n : Mnemonic) (d : FaultDetail) (s : State) : FaultRecord :=
  { kind := .outOfBounds, pc := s.pc, opcode := some (opcodeOf s.params.opcodes n), detail := d }

/-- The record of an operand byte of instruction `n` that names no register (60_exceptions.md R163). -/
def registerFault (n : Mnemonic) (v : Byte) (s : State) : FaultRecord :=
  { kind := .outOfBounds, pc := s.pc, opcode := some (opcodeOf s.params.opcodes n), detail := .registerIndex v }

/-- The record of an opcode byte that is in no row of the map (60_exceptions.md R161). -/
def unknownOpcodeFault (op : Byte) (s : State) : FaultRecord :=
  { kind := .unknownOpcode, pc := s.pc, opcode := some op, detail := .none }

/-- The record of a fetch outside 0–255; the opcode byte if it was fetched (60_exceptions.md R162; 40_dispatch.md R82, R83). -/
def fetchFault (opcode : Option Byte) (addr : Nat) (s : State) : FaultRecord :=
  { kind := .outOfBounds, pc := s.pc, opcode := opcode, detail := .address addr }

/-- The record of an unsupported ALU operation (60_exceptions.md R164: no opcode is in it). -/
def unsupportedFault (name : String) (s : State) : FaultRecord :=
  { kind := .unsupportedOperation, pc := s.pc, opcode := none, detail := .operation name }

/-- TAKING A FAULT: the status becomes `Faulted(record)` and nothing else changes (60_exceptions.md R166, R167). -/
def raiseFault (f : FaultRecord) (s : State) : State := { s with status := .faulted f }

/-- The end of a step from `s`: all of its writes together, or the fault taken in `s` itself with none of them
(00_scope.md R10; 60_exceptions.md R167). -/
def commit (s : State) : Except FaultRecord State → Host.Outcome State Fault Refusal
  | .ok t => .next t
  | .error f => .next (raiseFault f s)

/-- The code of a fault kind on the status port (60_exceptions.md R160). -/
def faultCode : FaultKind → Nat
  | .outOfBounds => 1
  | .unknownOpcode => 2
  | .unsupportedOperation => 3

end Sys2Proof.Machine
end

