-- ==== Sys2Proof/Machine/Operands.lean ====
section
/-!
DEFINITION. The operand forms: a register named by an operand byte (30_encoding.md R62; 40_dispatch.md R84), the
immediate, which is the operand byte as it stands (30_encoding.md R63) and needs no operation, and memory through SP
with pre-decrement or post-increment (43_stack.md).
-/

namespace Sys2Proof.Machine

/-- `CheckReg(v)` (40_dispatch.md R84): the register that the operand byte names, or the OutOfBounds fault of
instruction `n`. The whole byte is the index; it is not masked. -/
def checkReg (n : Mnemonic) (v : Byte) (s : State) : Except FaultRecord RegIndex :=
  if h : v.toNat < 8 then .ok ⟨v.toNat, h⟩ else .error (registerFault n v s)

/-- `SP` as a memory address (10_state.md R21; 20_memory.md R44). -/
def spAddress (s : State) : Nat := (reg spIndex s).toNat

/-- `x[7] <- (x[7] - 1) mod 256` (43_stack.md R130). -/
def decrementSp (s : State) : State := setReg spIndex (reg spIndex s - 1) s

/-- `x[7] <- (x[7] + 1) mod 256` (43_stack.md R131). -/
def incrementSp (s : State) : State := setReg spIndex (reg spIndex s + 1) s

/-- The address that a PUSH in `s` stores to: SP after the decrement (43_stack.md R130). -/
def pushAddress (s : State) : Nat := spAddress (decrementSp s)

/-- `MemWrite(x[7], 1, v)` by instruction `n` (43_stack.md R130). -/
def storeAtSp (n : Mnemonic) (v : Byte) (s : State) : Except FaultRecord State :=
  match memWrite s.mem (spAddress s) v.toNat with
  | .ok m => .ok (setMem m s)
  | .error d => .error (memoryFault n d s)

/-- `MemRead(x[7], 1)` by instruction `n` (43_stack.md R131). -/
def loadAtSp (n : Mnemonic) (s : State) : Except FaultRecord Byte :=
  match memRead s.mem (spAddress s) with
  | .ok v => .ok v
  | .error d => .error (memoryFault n d s)

end Sys2Proof.Machine
end

