-- ==== Sys2Proof/Machine/Alu.lean ====
section
/-!
DEFINITION. The ALU (41_alu.md R100 to R104, R108) and the two instructions that use it, MUL and CMP.
-/

namespace Sys2Proof.Machine

/-- The operation select of the ALU: the closed set {ADD, MUL, CMP}, and any other name (41_alu.md R100). -/
inductive AluOp where
  | add
  | mul
  | cmp
  /-- An operation outside the set. No instruction selects it (41_alu.md R108). -/
  | other (name : String)
deriving DecidableEq, Repr

/-- ADD: the sum of the unsigned values modulo 256 (41_alu.md R101). -/
def aluAdd (u v : Byte) : Byte := BitVec.ofNat 8 (u.toNat + v.toNat)

/-- MUL: the exact product of the unsigned values, of which the low 8 bits are kept (41_alu.md R102). -/
def aluMul (u v : Byte) : Byte := BitVec.ofNat 8 (u.toNat * v.toNat)

/-- `apply(operation, d, s)` (41_alu.md R100): one write, to `x[d]` or to FL, or the UnsupportedOperation fault. -/
def aluApply (op : AluOp) (d src : RegIndex) (s : State) : Except FaultRecord State :=
  match op with
  | .add => .ok (setReg d (aluAdd (reg d s) (reg src s)) s)
  | .mul => .ok (setReg d (aluMul (reg d s) (reg src s)) s)
  | .cmp => .ok (setFl (compareFlags s.params.cmpMode (reg d s) (reg src s)) s)
  | .other name => .error (unsupportedFault name s)

/-- MUL Ra,Rb (41_alu.md R105). -/
def execMul (a b : Byte) (s : State) : Host.Outcome State Fault Refusal :=
  commit s do
    let d ← checkReg .mul a s
    let src ← checkReg .mul b s
    let t ← aluApply .mul d src s
    return advance .mul t

/-- CMP Ra,Rb (41_alu.md R106). -/
def execCmp (a b : Byte) (s : State) : Host.Outcome State Fault Refusal :=
  commit s do
    let d ← checkReg .cmp a s
    let src ← checkReg .cmp b s
    let t ← aluApply .cmp d src s
    return advance .cmp t

end Sys2Proof.Machine
end

