-- ==== Sys2Proof/Machine/Control.lean ====
section
/-!
DEFINITION. JMP, JEQ, JNE and HLT (44_control.md R140 to R144).
-/

namespace Sys2Proof.Machine

/-- A jump through `x[r]` if `taken`, else the advance of instruction `n` (44_control.md R144). -/
def branch (n : Mnemonic) (taken : Bool) (r : RegIndex) (s : State) : State :=
  if taken then jumpTo (reg r s) s else advance n s

/-- JMP Ra (44_control.md R140). -/
def execJmp (a : Byte) (s : State) : Host.Outcome State Fault Refusal :=
  commit s do
    let r ← checkReg .jmp a s
    return jumpTo (reg r s) s

/-- JEQ Ra (44_control.md R141). The operand is checked whether or not the jump is taken. -/
def execJeq (a : Byte) (s : State) : Host.Outcome State Fault Refusal :=
  commit s do
    let r ← checkReg .jeq a s
    return branch .jeq (equalBit s.fl) r s

/-- JNE Ra (44_control.md R142). The operand is checked whether or not the jump is taken. -/
def execJne (a : Byte) (s : State) : Host.Outcome State Fault Refusal :=
  commit s do
    let r ← checkReg .jne a s
    return branch .jne (!equalBit s.fl) r s

/-- HLT (44_control.md R143): the status becomes `Halted`; the pc keeps the address of this HLT. -/
def execHlt (s : State) : Host.Outcome State Fault Refusal := commit s (.ok (halt s))

end Sys2Proof.Machine
end

