-- ==== Sys2Proof/Machine/LoadOutput.lean ====
section
/-!
DEFINITION. LDI and PRN (42_load_output.md R120 to R122).
-/

namespace Sys2Proof.Machine

/-- LDI Ra,imm (42_load_output.md R121). -/
def execLdi (a imm : Byte) (s : State) : Host.Outcome State Fault Refusal :=
  commit s do
    let d ← checkReg .ldi a s
    return advance .ldi (setReg d imm s)

/-- PRN Ra (42_load_output.md R122). -/
def execPrn (a : Byte) (s : State) : Host.Outcome State Fault Refusal :=
  commit s do
    let r ← checkReg .prn a s
    return advance .prn (emit (reg r s) s)

end Sys2Proof.Machine
end

