-- ==== Sys2Proof/Machine/Stack.lean ====
section
/-!
DEFINITION. PUSH and POP (43_stack.md R130, R131).
-/

namespace Sys2Proof.Machine

/-- PUSH Ra (43_stack.md R130): SP is decremented first, and `x[a]` is read after that, so that PUSH R7 stores the
decremented SP (92_eei_decisions.md D23). -/
def execPush (a : Byte) (s : State) : Host.Outcome State Fault Refusal :=
  commit s do
    let r ← checkReg .push a s
    let t := decrementSp s
    let u ← storeAtSp .push (reg r t) t
    return advance .push u

/-- POP Ra (43_stack.md R131): the cell at SP is read first, and `x[7]` is read for the increment after the write to
`x[a]`, so that POP R7 leaves the popped value plus 1 (92_eei_decisions.md D23). -/
def execPop (a : Byte) (s : State) : Host.Outcome State Fault Refusal :=
  commit s do
    let d ← checkReg .pop a s
    let v ← loadAtSp .pop s
    return advance .pop (incrementSp (setReg d v s))

end Sys2Proof.Machine
end

