-- ==== Sys2Proof/Machine/Fetch.lean ====
section
/-!
DEFINITION. Fetching an instruction from memory (40_dispatch.md R81 to R83) and storing an instruction's bytes.
-/

namespace Sys2Proof.Machine

/-- The byte at `pc + k`, if that address exists (20_memory.md R41; 40_dispatch.md R82, R83). -/
def byteAtPc (s : State) (k : Nat) : Option Byte := (memRead s.mem (s.pc + k)).toOption

/-- The fault that a failed fetch or decode raises (60_exceptions.md R161, R162). -/
def decodeFault (e : DecodeError) (s : State) : FaultRecord :=
  match e with
  | .missingByte k op => fetchFault op (s.pc + k) s
  | .unknownOpcode op => unknownOpcodeFault op s

/-- The instruction at `pc`, or the fault of fetching it, by the checks 1 to 4 of 60_exceptions.md R168 in their order. The
bytes come from memory as it stands (20_memory.md R53). -/
def fetch (s : State) : Except FaultRecord Instr :=
  match decodeFrom s.params.opcodes (byteAtPc s) with
  | .ok i => .ok i
  | .error e => .error (decodeFault e s)

/-- Memory with the bytes stored one after the other from address `a` upwards, as far as the address space reaches. -/
def storeBytes : Memory → Nat → List Byte → Memory
  | m, _, [] => m
  | m, a, b :: bs => storeBytes (if a < 256 then m.set a b else m) (a + 1) bs

end Sys2Proof.Machine
end

