-- ==== Sys2Proof/Machine/Step.lean ====
section
/-!
DEFINITION. One step (40_dispatch.md R80, R81), and the state in which the next step fetches a given table word.
-/

namespace Sys2Proof.Machine

/-- One step: one whole instruction (00_scope.md R10). No step is enabled in `Halted` or `Faulted` (40_dispatch.md R80);
from `Running`, the instruction is fetched and executed, or the fault of its fetch is taken. -/
def step (s : State) : Host.Outcome State Fault Refusal :=
  match s.status with
  | .halted => .fault .alreadyHalted
  | .faulted _ => .fault .alreadyFaulted
  | .running =>
    match fetch s with
    | .error f => .next (raiseFault f s)
    | .ok i => exec i s

/-- `s` with the three bytes of a table word stored at `pc`, `pc + 1`, `pc + 2`, where the next step fetches; nothing else
changes. It stands for the host's load port (log entry 4). For a running state with the default opcode map and a pc of at
most 253 the next step runs the instruction `decodeTableWord nbits w`. -/
def State.withFetchWord (s : State) (nbits w : Nat) : State :=
  setMem (storeBytes s.mem s.pc (tableBytes nbits w)) s

end Sys2Proof.Machine
end

