-- ==== Sys2Proof/Machine/HostPort.lean ====
section
/-!
DEFINITION. The block's ports to the host (00_scope.md R5): reset with any parameters and any `MEM_INIT`, the load port, and the
run loop.
-/

namespace Sys2Proof.Machine

/-- Reset of a machine with the given parameters and `MEM_INIT` (10_state.md R33; 70_reset_and_hazards.md R190). -/
def resetWith (p : Params) (memInit : Nat → Byte) : State :=
  { State.reset with mem := Memory.ofFn memInit, params := p }

/-- One call of the load port: `MemWrite(addr, 1, v)` with its checks, and no change of the status when it is refused
(70_reset_and_hazards.md R193; 00_scope.md R9). -/
def loadWrite (addr v : Nat) (s : State) : Except FaultDetail State :=
  match memWrite s.mem addr v with
  | .ok m => .ok (setMem m s)
  | .error d => .error d

/-- The loader's calls from address `a` upwards: the state they leave, and the error of the call that was refused, if one
was (70_reset_and_hazards.md R193). -/
def loadFrom : Nat → List Byte → State → State × Option FaultDetail
  | _, [], s => (s, none)
  | a, b :: bs, s =>
    match loadWrite a b.toNat s with
    | .ok t => loadFrom (a + 1) bs t
    | .error d => (s, some d)

/-- Load a program, from address 0 (70_reset_and_hazards.md R191, R193). -/
def loadProgram (program : List Byte) (s : State) : State × Option FaultDetail := loadFrom 0 program s

/-- The run loop under fuel: steps while the status is `Running`, at most `k` of them
(40_dispatch.md R80, R87; 92_eei_decisions.md D16: running out of fuel is not an end of the run). -/
def runFor : Nat → State → State
  | 0, s => s
  | k + 1, s =>
    match step s with
    | .next t => runFor k t
    | .fault _ => s
    | .refused _ => s

end Sys2Proof.Machine
end

