-- ==== Sys2Proof/WellFormed.lean ====
section
/-!
DEFINITION. Well-formed instructions and well-formed opcode maps.
-/

namespace Sys2Proof

/-- A register operand byte that names a register (30_encoding.md R62). -/
def namesRegister (v : Byte) : Bool := v.toNat < 8

/-- An instruction all of whose register operands name registers. Every immediate is legal
(30_encoding.md R68). An instruction that is not well-formed still decodes and still has a meaning: it takes the
OutOfBounds fault of 40_dispatch.md R84. -/
def Instr.wellFormed (i : Instr) : Bool := (registerOperands i).all namesRegister

/-- The constraint on `OPCODE_MAP`: the ten opcode values are pairwise distinct (30_encoding.md R67). -/
abbrev OpcodeMap.WellFormed (m : OpcodeMap) : Prop := (allMnemonics.map (opcodeOf m)).Nodup

end Sys2Proof
end

