-- ==== Sys2Proof/Safety.lean ====
section
/-!
DEFINITION. The legal states of the machine, and the terms that claims about a step are stated in: what stays as it was,
which registers an instruction writes, which of its operand bytes faults.
-/

namespace Sys2Proof.Machine

/-! ### Legal states -/

/-- The values FL can hold in each mode (10_state.md R24, R25; 41_alu.md R103, R104). -/
def legalFlags : CmpFlagMode → List Byte
  | .exclusive => [0x00, 0x01, 0x02, 0x04]
  | .referenceOverlap => [0x00, 0x01, 0x03, 0x04]

/-- The legal states: memory is in its canonical form, the pc is at most 256 (one past the last address, to which an advance
can take it), FL holds a value that its mode can give, and the ten opcodes are pairwise distinct. -/
structure Legal (s : State) : Prop where
  mem     : s.mem.wf
  pc      : s.pc ≤ 256
  flags   : s.fl ∈ legalFlags s.params.cmpMode
  opcodes : s.params.opcodes.WellFormed

/-! ### Reading a state -/

/-- The byte in memory at an address. -/
def byteAt (s : State) (a : Nat) : Byte := s.mem.get a

/-- Memory holds these bytes from address `a` upwards, all of them inside the address space. -/
abbrev HoldsBytes (s : State) (a : Nat) (bytes : List Byte) : Prop :=
  a + bytes.length ≤ 256 ∧ ∀ k, k < bytes.length → bytes[k]? = some (byteAt s (a + k))

/-- The operand byte that names a register (30_encoding.md R62). -/
def operandByte (r : RegIndex) : Byte := BitVec.ofNat 8 r.val

/-! ### What stays as it was -/

/-- Every register but those listed is unchanged. -/
def SameRegsBut (ds : List RegIndex) (s t : State) : Prop := ∀ k, k ∉ ds → reg k t = reg k s

/-- Every byte of memory is unchanged. -/
def SameMem (s t : State) : Prop := ∀ a, byteAt t a = byteAt s a

/-- Every byte of memory but the one at `x` is unchanged. -/
def SameMemBut (x : Nat) (s t : State) : Prop := ∀ a, a ≠ x → byteAt t a = byteAt s a

/-! ### Instructions -/

/-- The register that an operand byte names, if it names one, as a list of none or one. -/
def namedRegister (v : Byte) : List RegIndex := if h : v.toNat < 8 then [⟨v.toNat, h⟩] else []

/-- The registers that the spec lets an instruction write: its destination, and SP for PUSH and POP (10_state.md R20, R21). -/
def writtenRegisters : Instr → List RegIndex
  | .hlt => []
  | .ldi a _ => namedRegister a
  | .prn _ => []
  | .mul a _ => namedRegister a
  | .push _ => [spIndex]
  | .pop a => namedRegister a ++ [spIndex]
  | .cmp _ _ => []
  | .jmp _ => []
  | .jeq _ => []
  | .jne _ => []

/-- The first register operand that names no register, a before b (60_exceptions.md R168). -/
def firstBadOperand (i : Instr) : Option Byte := (registerOperands i).find? fun v => !namesRegister v

/-- The pushes of a list of registers, one after the other, through the meaning of PUSH. -/
def pushAll : List RegIndex → State → Option State
  | [], s => some s
  | r :: rs, s =>
    match exec (.push (operandByte r)) s with
    | .next t => pushAll rs t
    | .fault _ => none
    | .refused _ => none

end Sys2Proof.Machine
end

