-- ==== Sys2Proof/Certificates/Slice0/Obligations.lean ====
section
/-!
DEFINITION. The statements for the provers. A docstring names the rule or the section that a statement formalises, and,
where it rests on a choice the spec marks as its own or on the model's, that choice.
-/

open Sys2Proof Sys2Proof.Machine

/-! ### Encoding and decoding -/

/-- 40_dispatch.md §2: when the bytes at the pc decode to a well-formed instruction, a step of a running machine is that
instruction's meaning in that state; the step adds nothing around it (the meaning moves the pc itself). -/
def Obligations.StepRunsDecodedInstruction : Prop :=
  ∀ (s : State) (i : Instr), s.status = .running → i.wellFormed = true →
    decodeFrom s.params.opcodes (byteAtPc s) = .ok i → step s = exec i s

/-- 40_dispatch.md §2, 30_encoding.md §1: when memory holds the encoding of an instruction at the pc, a step of a running machine
is that instruction's meaning, whatever its operand bytes are. Rests on the order of checks of 92_eei_decisions.md D6, D7 (operands
are fetched before they are checked). -/
def Obligations.StepRunsEncodedInstruction : Prop :=
  ∀ (s : State) (i : Instr), s.status = .running → s.params.opcodes.WellFormed →
    HoldsBytes s s.pc (encode s.params.opcodes i) → step s = exec i s

/-- 30_encoding.md §1, §4: decoding the encoding of an instruction gives the instruction, with every operand at every value, and
the bytes after it; under every opcode map whose ten values are distinct. -/
def Obligations.DecodeInvertsEncode : Prop :=
  ∀ (m : OpcodeMap) (i : Instr) (rest : List Byte), m.WellFormed →
    decode m (encode m i ++ rest) = .ok (i, rest)

/-- 30_encoding.md §1, §4: what decodes to an instruction is that instruction's encoding, so that no byte string but its encoding
stands for an instruction. -/
def Obligations.EncodeInvertsDecode : Prop :=
  ∀ (m : OpcodeMap) (bytes rest : List Byte) (i : Instr),
    decode m bytes = .ok (i, rest) → encode m i ++ rest = bytes

/-- 30_encoding.md R64: the length of an instruction is a function of its opcode byte alone, and is the width column of R66. -/
def Obligations.LengthFollowsOpcodeByte : Prop :=
  (∀ (m : OpcodeMap) (op : Byte) (xs ys xrest yrest : List Byte) (i j : Instr),
    decode m (op :: xs) = .ok (i, xrest) → decode m (op :: ys) = .ok (j, yrest) →
      mnemonicOf i = mnemonicOf j ∧
      (op :: xs).length = width (mnemonicOf i) + xrest.length ∧
      (op :: ys).length = width (mnemonicOf i) + yrest.length) ∧
  allMnemonics.map (fun n => (n, width n)) =
    [(.hlt, 1), (.ldi, 3), (.prn, 2), (.mul, 3), (.push, 2), (.pop, 2), (.cmp, 3), (.jmp, 2), (.jeq, 2), (.jne, 2)]

/-- 30_encoding.md §5: the decoder refuses an opcode byte, as unknown, exactly when it is none of the ten values of the map. -/
def Obligations.UnmappedOpcodesRefused : Prop :=
  ∀ (m : OpcodeMap) (op : Byte) (rest : List Byte),
    decode m (op :: rest) = .error (.unknownOpcode op) ↔ ∀ n, opcodeOf m n ≠ op

/-- 30_encoding.md §4, §6, 95_test_vectors.md: words written out from the encodings decode to the instructions they stand for. The bytes of
PUSH, POP, CMP, JMP, JEQ and JNE are the default of `OPCODE_MAP` (log entry 2). -/
def Obligations.WrittenWordsDecode : Prop :=
  decode defaultOpcodeMap [0b10000010, 0b00000000, 0b00001000] = .ok (.ldi 0 8, []) ∧
  decode defaultOpcodeMap [0b10100010, 0b00000000, 0b00000001] = .ok (.mul 0 1, []) ∧
  decode defaultOpcodeMap [0b01000111, 0b00000000, 0b00000001] = .ok (.prn 0, [0b00000001]) ∧
  decode defaultOpcodeMap [0b00000001] = .ok (.hlt, []) ∧
  decode defaultOpcodeMap [0x45, 0x02] = .ok (.push 2, []) ∧
  decode defaultOpcodeMap [0x46, 0x01] = .ok (.pop 1, []) ∧
  decode defaultOpcodeMap [0xA7, 0x03, 0x04] = .ok (.cmp 3 4, []) ∧
  decode defaultOpcodeMap [0x54, 0x02] = .ok (.jmp 2, []) ∧
  decode defaultOpcodeMap [0x55, 0x03] = .ok (.jeq 3, []) ∧
  decode defaultOpcodeMap [0x56, 0x03] = .ok (.jne 3, [])

/-- 30_encoding.md §4, §5: the default opcode map meets the constraint on `OPCODE_MAP`, and under it 246 byte values are illegal,
0x00 and 0xA0 among them. The default is the spec's, from general knowledge (log entry 2). -/
def Obligations.DefaultOpcodesDistinct : Prop :=
  defaultOpcodeMap.WellFormed ∧
  ((List.range 256).filter fun b => decodeOpcode defaultOpcodeMap (BitVec.ofNat 8 b) = none).length = 246 ∧
  decodeOpcode defaultOpcodeMap 0x00 = none ∧ decodeOpcode defaultOpcodeMap 0xA0 = none

/-! ### The ALU and the flags -/

/-- 41_alu.md R102: the MUL function writes the exact product's low 8 bits to `x[d]`; FL and everything else stay. -/
def Obligations.AluMulWraps : Prop :=
  ∀ (s : State) (d src : RegIndex), ∃ t, aluApply .mul d src s = .ok t ∧
    (reg d t).toNat = (reg d s).toNat * (reg src s).toNat % 256 ∧ SameRegsBut [d] s t ∧
    t.fl = s.fl ∧ t.pc = s.pc ∧ t.status = s.status ∧ t.output = s.output ∧ SameMem s t ∧ t.params = s.params

/-- 41_alu.md §1: the ADD function, which no opcode selects (92_eei_decisions.md D14), and the fault of an operation outside the
set: the UnsupportedOperation record names the pc and the operation. That it names no opcode is the model's reading (log entry 6). -/
def Obligations.AluAddAndUnsupported : Prop :=
  (∀ (s : State) (d src : RegIndex), ∃ t, aluApply .add d src s = .ok t ∧
    (reg d t).toNat = ((reg d s).toNat + (reg src s).toNat) % 256 ∧ SameRegsBut [d] s t ∧
    t.fl = s.fl ∧ t.pc = s.pc ∧ t.status = s.status ∧ t.output = s.output ∧ SameMem s t ∧ t.params = s.params) ∧
  (∀ (s : State) (d src : RegIndex) (name : String), ∃ f, aluApply (.other name) d src s = .error f ∧
    f.kind = .unsupportedOperation ∧ f.pc = s.pc ∧ f.detail = .operation name)

/-- 41_alu.md R103: the CMP function in mode EXCLUSIVE: G alone, L alone or E alone, by the unsigned values; the whole byte is
written and the old FL plays no part. -/
def Obligations.CompareExclusiveFlags : Prop :=
  ∀ (s : State) (d src : RegIndex), s.params.cmpMode = .exclusive →
    ∃ t, aluApply .cmp d src s = .ok t ∧
      t.fl = (if (reg d s).toNat > (reg src s).toNat then 0b00000010
        else if (reg d s).toNat < (reg src s).toNat then 0b00000100 else 0b00000001) ∧
      SameRegsBut [] s t ∧ t.pc = s.pc ∧ t.status = s.status ∧ t.output = s.output ∧ SameMem s t ∧ t.params = s.params

/-- 41_alu.md §1: the CMP function in mode REFERENCE_OVERLAP: G and E together for greater, L for less, E for equal. Rests on
92_eei_decisions.md D9 (the bits are combined, the old FL is replaced). -/
def Obligations.CompareOverlapFlags : Prop :=
  ∀ (s : State) (d src : RegIndex), s.params.cmpMode = .referenceOverlap →
    ∃ t, aluApply .cmp d src s = .ok t ∧
      t.fl = (if (reg d s).toNat > (reg src s).toNat then 0b00000011
        else if (reg d s).toNat < (reg src s).toNat then 0b00000100 else 0b00000001) ∧
      SameRegsBut [] s t ∧ t.pc = s.pc ∧ t.status = s.status ∧ t.output = s.output ∧ SameMem s t ∧ t.params = s.params

/-- 41_alu.md §2 (its source's property), 10_state.md §4: in mode EXCLUSIVE a CMP on registers sets exactly one of the bits E, G, L,
each by its own comparison, and bits 7:3 are 0 (92_eei_decisions.md D21). -/
def Obligations.CmpSetsExactlyOneFlag : Prop :=
  ∀ (s t : State) (a b : RegIndex), s.params.cmpMode = .exclusive →
    exec (.cmp (operandByte a) (operandByte b)) s = .next t →
      (t.fl.getLsbD 0 = true ↔ reg a s = reg b s) ∧
      (t.fl.getLsbD 1 = true ↔ (reg a s).toNat > (reg b s).toNat) ∧
      (t.fl.getLsbD 2 = true ↔ (reg a s).toNat < (reg b s).toNat) ∧
      (∀ k, 3 ≤ k → t.fl.getLsbD k = false) ∧
      [t.fl.getLsbD 0, t.fl.getLsbD 1, t.fl.getLsbD 2].count true = 1

/-! ### Each instruction: what it does, what it leaves, and that it completes -/

/-- 42_load_output.md R121, whole: the encoding; the effect; the OutOfBounds fault of a register index above 7 and of an LDI that
starts at 254 or 255. Of a faulting step only the status is stated, and not the detail of its record (`BadRegisterFaults`,
`OperandFetchPastEndFaults` and `FaultsArePrecise` state those). -/
def Obligations.LdiLoadsImmediate : Prop :=
  (∀ (m : OpcodeMap) (a imm : Byte), encode m (.ldi a imm) = [0x82, a, imm]) ∧
  (∀ (s : State) (r : RegIndex) (imm : Byte), ∃ t, exec (.ldi (operandByte r) imm) s = .next t ∧
    reg r t = imm ∧ SameRegsBut [r] s t ∧ t.pc = s.pc + 3 ∧
    t.fl = s.fl ∧ t.status = s.status ∧ t.output = s.output ∧ SameMem s t ∧ t.params = s.params) ∧
  (∀ (s : State) (a imm : Byte), 7 < a.toNat → ∃ t d, exec (.ldi a imm) s = .next t ∧
    t.status = .faulted ⟨.outOfBounds, s.pc, some 0x82, d⟩) ∧
  (∀ s : State, s.status = .running → s.params.opcodes.WellFormed → (s.pc = 254 ∨ s.pc = 255) → byteAt s s.pc = 0x82 →
    ∃ t d, step s = .next t ∧ t.status = .faulted ⟨.outOfBounds, s.pc, some 0x82, d⟩)

/-- 42_load_output.md (PRN): the register's value is appended to the output. That the output never blocks is
92_eei_decisions.md D22. -/
def Obligations.PrnEmitsRegister : Prop :=
  ∀ (s : State) (r : RegIndex), ∃ t, exec (.prn (operandByte r)) s = .next t ∧
    t.output = s.output ++ [reg r s] ∧ SameRegsBut [] s t ∧ t.pc = s.pc + 2 ∧
    t.fl = s.fl ∧ t.status = s.status ∧ SameMem s t ∧ t.params = s.params

/-- 41_alu.md R105, whole: the encoding; the product modulo 256, FL kept; the OutOfBounds fault of a register index above 7 and of a
MUL that starts at 254 or 255. Of a faulting step only the status is stated, and not the detail of its record. -/
def Obligations.MulMultipliesRegisters : Prop :=
  (∀ (m : OpcodeMap) (a b : Byte), encode m (.mul a b) = [0xA2, a, b]) ∧
  (∀ (s : State) (d src : RegIndex), ∃ t, exec (.mul (operandByte d) (operandByte src)) s = .next t ∧
    (reg d t).toNat = (reg d s).toNat * (reg src s).toNat % 256 ∧ SameRegsBut [d] s t ∧ t.pc = s.pc + 3 ∧
    t.fl = s.fl ∧ t.status = s.status ∧ t.output = s.output ∧ SameMem s t ∧ t.params = s.params) ∧
  (∀ (s : State) (a b : Byte), 7 < a.toNat ∨ 7 < b.toNat → ∃ t d, exec (.mul a b) s = .next t ∧
    t.status = .faulted ⟨.outOfBounds, s.pc, some 0xA2, d⟩) ∧
  (∀ s : State, s.status = .running → s.params.opcodes.WellFormed → (s.pc = 254 ∨ s.pc = 255) → byteAt s s.pc = 0xA2 →
    ∃ t d, step s = .next t ∧ t.status = .faulted ⟨.outOfBounds, s.pc, some 0xA2, d⟩)

/-- 41_alu.md §2 (CMP): FL becomes the comparison of the two registers in the machine's mode; nothing else but the pc changes. The
overlap mode rests on 92_eei_decisions.md D9. -/
def Obligations.CmpWritesFlags : Prop :=
  ∀ (s : State) (a b : RegIndex), ∃ t, exec (.cmp (operandByte a) (operandByte b)) s = .next t ∧
    t.fl = (if (reg a s).toNat > (reg b s).toNat then
          (match s.params.cmpMode with | .exclusive => 0x02 | .referenceOverlap => 0x03)
        else if (reg a s).toNat < (reg b s).toNat then 0x04 else 0x01) ∧
    SameRegsBut [] s t ∧ t.pc = s.pc + 3 ∧ t.status = s.status ∧ t.output = s.output ∧ SameMem s t ∧ t.params = s.params

/-- 43_stack.md (PUSH): SP goes down by one modulo 256 with no fault (92_eei_decisions.md D8), and the register's value, read after that
(D23: PUSH R7 stores the decremented SP), is stored at the new SP; no other byte and no other register changes. -/
def Obligations.PushStoresRegister : Prop :=
  ∀ (s : State) (r : RegIndex), s.mem.wf →
    pushAddress s = ((reg spIndex s).toNat + 255) % 256 ∧
    ∃ t, exec (.push (operandByte r)) s = .next t ∧
      (reg spIndex t).toNat = ((reg spIndex s).toNat + 255) % 256 ∧ SameRegsBut [spIndex] s t ∧
      byteAt t (pushAddress s) = (if r = spIndex then reg spIndex s - 1 else reg r s) ∧
      SameMemBut (pushAddress s) s t ∧ t.pc = s.pc + 2 ∧
      t.fl = s.fl ∧ t.status = s.status ∧ t.output = s.output ∧ t.params = s.params

/-- 43_stack.md (POP): the register takes the byte at SP and SP goes up by one modulo 256 with no fault (92_eei_decisions.md D8); POP R7
leaves the popped value plus one (D23). No byte of memory changes. -/
def Obligations.PopLoadsRegister : Prop :=
  ∀ (s : State) (r : RegIndex), ∃ t, exec (.pop (operandByte r)) s = .next t ∧
    (r ≠ spIndex → reg r t = byteAt s (reg spIndex s).toNat ∧
      (reg spIndex t).toNat = ((reg spIndex s).toNat + 1) % 256) ∧
    (r = spIndex → (reg spIndex t).toNat = ((byteAt s (reg spIndex s).toNat).toNat + 1) % 256) ∧
    SameRegsBut [r, spIndex] s t ∧ SameMem s t ∧ t.pc = s.pc + 2 ∧
    t.fl = s.fl ∧ t.status = s.status ∧ t.output = s.output ∧ t.params = s.params

/-- 44_control.md (JMP): the pc becomes the register's value, an address 0–255; nothing else changes. -/
def Obligations.JmpLoadsPc : Prop :=
  ∀ (s : State) (r : RegIndex), ∃ t, exec (.jmp (operandByte r)) s = .next t ∧
    t.pc = (reg r s).toNat ∧ t.pc < 256 ∧ SameRegsBut [] s t ∧
    t.fl = s.fl ∧ t.status = s.status ∧ t.output = s.output ∧ SameMem s t ∧ t.params = s.params

/-- 44_control.md (JEQ): the jump is taken exactly when FL bit 0 is 1; else the pc advances by 2; nothing else changes. -/
def Obligations.JeqJumpsWhenEqual : Prop :=
  ∀ (s : State) (r : RegIndex), ∃ t, exec (.jeq (operandByte r)) s = .next t ∧
    t.pc = (if s.fl.toNat % 2 = 1 then (reg r s).toNat else s.pc + 2) ∧ SameRegsBut [] s t ∧
    t.fl = s.fl ∧ t.status = s.status ∧ t.output = s.output ∧ SameMem s t ∧ t.params = s.params

/-- 44_control.md (JNE): the jump is taken exactly when FL bit 0 is 0; else the pc advances by 2; nothing else changes. -/
def Obligations.JneJumpsWhenNotEqual : Prop :=
  ∀ (s : State) (r : RegIndex), ∃ t, exec (.jne (operandByte r)) s = .next t ∧
    t.pc = (if s.fl.toNat % 2 = 0 then (reg r s).toNat else s.pc + 2) ∧ SameRegsBut [] s t ∧
    t.fl = s.fl ∧ t.status = s.status ∧ t.output = s.output ∧ SameMem s t ∧ t.params = s.params

/-- 44_control.md R143, whole: the encoding; the status becomes `Halted` and the pc and everything else stay; a HLT at any address up
to 255 does so, whatever follows it; after it no step is taken. -/
def Obligations.HltHalts : Prop :=
  (∀ m : OpcodeMap, encode m .hlt = [0x01]) ∧
  (∀ s : State, ∃ t, exec .hlt s = .next t ∧ t.status = .halted ∧ t.pc = s.pc ∧ SameRegsBut [] s t ∧
    t.fl = s.fl ∧ t.output = s.output ∧ SameMem s t ∧ t.params = s.params) ∧
  (∀ s : State, s.status = .running → s.params.opcodes.WellFormed → s.pc ≤ 255 → byteAt s s.pc = 0x01 →
    step s = exec .hlt s ∧ ∀ t u, step s = .next t → step t ≠ .next u)

/-- 41_alu.md, 44_control.md (the source's property of JEQ after CMP): a JEQ that follows a CMP jumps when the two registers were equal,
and in mode REFERENCE_OVERLAP also when the first was greater (92_eei_decisions.md D9); else it goes on after both. JNE does the
opposite. -/
def Obligations.BranchAfterCompare : Prop :=
  ∀ (s t u w : State) (a b r : RegIndex),
    exec (.cmp (operandByte a) (operandByte b)) s = .next t →
    exec (.jeq (operandByte r)) t = .next u → exec (.jne (operandByte r)) t = .next w →
    let equal : Prop := match s.params.cmpMode with
      | .exclusive => reg a s = reg b s
      | .referenceOverlap => (reg b s).toNat ≤ (reg a s).toNat
    (equal → u.pc = (reg r s).toNat ∧ w.pc = s.pc + 5) ∧
    (¬ equal → u.pc = s.pc + 5 ∧ w.pc = (reg r s).toNat)

/-! ### Frames over the whole instruction set -/

/-- 20_memory.md §1, 43_stack.md: no instruction but PUSH changes a byte of memory, and PUSH changes at most the byte at
the address it stores to, whether or not the instruction faults (of one that faults this rests on 92_eei_decisions.md D5). -/
def Obligations.OnlyPushWritesMemory : Prop :=
  ∀ (s t : State) (i : Instr), exec i s = .next t →
    (∀ a, i = .push a → SameMemBut (pushAddress s) s t) ∧ ((∀ a, i ≠ .push a) → SameMem s t)

/-- 10_state.md §2: an instruction changes no register but its destination and, for PUSH and POP, SP (of one that faults
this rests on 92_eei_decisions.md D5). -/
def Obligations.OnlyDestinationsChange : Prop :=
  ∀ (s t : State) (i : Instr), exec i s = .next t → SameRegsBut (writtenRegisters i) s t

/-- 10_state.md §4: no instruction but CMP changes FL (of one that faults this rests on 92_eei_decisions.md D5). -/
def Obligations.OnlyCmpWritesFlags : Prop :=
  ∀ (s t : State) (i : Instr), exec i s = .next t → (∀ a b, i ≠ .cmp a b) → t.fl = s.fl

/-- 10_state.md §5: no instruction but PRN changes the output, and a step appends to it at most one byte and removes none (of one
that faults this rests on 92_eei_decisions.md D5). -/
def Obligations.OnlyPrnWritesOutput : Prop :=
  (∀ (s t : State) (i : Instr), exec i s = .next t → (∀ a, i ≠ .prn a) → t.output = s.output) ∧
  (∀ s t : State, step s = .next t → t.output = s.output ∨ ∃ v, t.output = s.output ++ [v])

/-- 10_state.md §5 (the status): an instruction leaves the status as it was, unless it is HLT, or it names a register that does not
exist; no well-formed instruction faults. That an operand above 7 faults at all, on every path, is log entry 10 and, in log entry 16,
92_eei_decisions.md D19 (no masking) and D7 (the operand of a jump not taken is checked); that no well-formed instruction faults rests on D8
(no stack fault) and D22 (the output never fails). -/
def Obligations.OnlyHltAndBadOperandsEndRun : Prop :=
  ∀ (s t : State) (i : Instr), exec i s = .next t →
    (i.wellFormed = true → i ≠ .hlt → t.status = s.status) ∧
    (i.wellFormed = false → ∃ f, t.status = .faulted f ∧ f.kind = .outOfBounds)

/-- 00_scope.md §4, 10_state.md §5: no step changes the parameters the machine was built with. That they stand in the state is the model's
choice (log entry 1). -/
def Obligations.ParametersNeverChange : Prop :=
  ∀ s t : State, step s = .next t → t.params = s.params

/-- 10_state.md §4: an instruction reads no bit of FL but bit 0: two states that differ in FL alone, and agree in bit 0 of it, have next
states that differ in FL alone, and not even in FL after a CMP that does not fault. That a CMP replaces the
old FL whole is, in mode REFERENCE_OVERLAP, 92_eei_decisions.md D9 (log entry 16). -/
def Obligations.OnlyEqualBitIsRead : Prop :=
  ∀ (s t : State) (i : Instr) (f : Byte), f.getLsbD 0 = s.fl.getLsbD 0 → exec i s = .next t →
    ∃ g, exec i { s with fl := f } = .next { t with fl := g } ∧
      (∀ a b, i = .cmp a b → i.wellFormed = true → g = t.fl) ∧ ((∀ a b, i ≠ .cmp a b) → g = f)

/-- 10_state.md §5: the block never reads its output: bytes put before what was emitted change nothing that a step does. -/
def Obligations.OutputIsNeverRead : Prop :=
  ∀ (s t : State) (earlier : List Byte), step s = .next t →
    step { s with output := earlier ++ s.output } = .next { t with output := earlier ++ t.output }

/-! ### Faults -/

/-- 40_dispatch.md §2, 60_exceptions.md §1, §2: an instruction with a register operand above 7 takes the OutOfBounds fault of its first such
operand, taken branch or not, and writes nothing else. Rests on 92_eei_decisions.md D5 (precise), D6 (a before b), D7 (checked on every
path) and D19 (no masking). -/
def Obligations.BadRegisterFaults : Prop :=
  ∀ (s : State) (i : Instr) (v : Byte), firstBadOperand i = some v →
    exec i s = .next
      { s with status := .faulted ⟨.outOfBounds, s.pc, some (opcodeOf s.params.opcodes (mnemonicOf i)), .registerIndex v⟩ }

/-- 40_dispatch.md §2: a running machine whose pc is past the last address takes the OutOfBounds fault of its opcode fetch. Rests on
92_eei_decisions.md D4 (the pc does not wrap) and D5. -/
def Obligations.OpcodeFetchPastEndFaults : Prop :=
  ∀ s : State, s.status = .running → 256 ≤ s.pc →
    step s = .next { s with status := .faulted ⟨.outOfBounds, s.pc, none, .address s.pc⟩ }

/-- 60_exceptions.md R161, whole: a running machine that fetches a byte that is none of the ten opcode values ends in `Faulted` with the
UnknownOpcode record. -/
def Obligations.UnknownOpcodeFaults : Prop :=
  ∀ s : State, s.status = .running → s.pc < 256 → (∀ n, opcodeOf s.params.opcodes n ≠ byteAt s s.pc) →
    ∃ t, step s = .next t ∧ t.status = .faulted ⟨.unknownOpcode, s.pc, some (byteAt s s.pc), .none⟩

/-- 40_dispatch.md §2, 60_exceptions.md §2: an instruction whose operand bytes do not all lie below 256 takes the OutOfBounds fault of the
first address out of range, which is 256, whatever its operands are and whether or not it would use them. Rests on
92_eei_decisions.md D5, D6 and D7. -/
def Obligations.OperandFetchPastEndFaults : Prop :=
  ∀ (s : State) (n : Mnemonic), s.status = .running → s.params.opcodes.WellFormed → s.pc < 256 →
    byteAt s s.pc = opcodeOf s.params.opcodes n → 256 < s.pc + width n →
      step s = .next
        { s with status := .faulted ⟨.outOfBounds, s.pc, some (opcodeOf s.params.opcodes n), .address 256⟩ }

/-- 60_exceptions.md §2: a step that ends in `Faulted` changed nothing but the status, and its record holds the address of the faulting
instruction. Rests on 92_eei_decisions.md D5. -/
def Obligations.FaultsArePrecise : Prop :=
  ∀ (s t : State) (f : FaultRecord), step s = .next t → t.status = .faulted f →
    t = { s with status := .faulted f } ∧ f.pc = s.pc

/-- 41_alu.md §3: no step raises UnsupportedOperation. -/
def Obligations.UnsupportedOperationUnreachable : Prop :=
  ∀ (s t : State) (f : FaultRecord), step s = .next t → t.status = .faulted f → f.kind ≠ .unsupportedOperation

/-- 40_dispatch.md §1: no step is taken from `Halted` or from `Faulted` (92_eei_decisions.md D20). That a step there answers a fault of its
own name is the model's convention (log entry 5). -/
def Obligations.TerminalStatesTakeNoStep : Prop :=
  ∀ s : State, (s.status = .halted → step s = .fault .alreadyHalted) ∧
    (∀ f, s.status = .faulted f → step s = .fault .alreadyFaulted)

/-- 40_dispatch.md §1, §4: from every running state a step answers a next state: no running state is stuck and nothing is refused. -/
def Obligations.RunningStatesAlwaysStep : Prop :=
  ∀ s : State, s.status = .running → ∃ t, step s = .next t

/-- 40_dispatch.md §4: a step ends a run in `Halted` only through the HLT opcode at the pc, and then the pc keeps its address. -/
def Obligations.HaltedOnlyByHlt : Prop :=
  ∀ s t : State, step s = .next t → t.status = .halted →
    s.pc < 256 ∧ byteAt s s.pc = 0x01 ∧ t = { s with status := .halted }

/-! ### Reset and the invariant -/

/-- 10_state.md §9, 70_reset_and_hazards.md §1: what reset leaves, for every `MEM_INIT` and every choice of the parameters. The empty output
is 92_eei_decisions.md D11; that memory reads as `MEM_INIT` is D3. `State.reset` is the reset with the default parameters and, by the
model's choice (log entry 3), 0 in every cell. -/
def Obligations.ResetLeavesSpecValues : Prop :=
  (∀ (p : Params) (memInit : Nat → Byte),
    (∀ r : RegIndex, r ≠ 7 → reg r (resetWith p memInit) = 0) ∧ reg 7 (resetWith p memInit) = 0xF4 ∧
    (resetWith p memInit).pc = 0 ∧ (resetWith p memInit).fl = 0 ∧ (resetWith p memInit).status = .running ∧
    (resetWith p memInit).output = [] ∧ (resetWith p memInit).params = p ∧
    ∀ a, a < 256 → byteAt (resetWith p memInit) a = memInit a) ∧
  State.reset = resetWith ⟨defaultOpcodeMap, .exclusive⟩ fun _ => 0

/-- The state after reset is legal: its memory is canonical, its pc an address, its FL a value of its mode, its opcodes distinct
(10_state.md §9). The opcodes are the default map's, which the spec presumes (log
entries 1 and 2); that ten distinct values are what an opcode map needs is 30_encoding.md §4. The reset memory is canonical because it lists
nothing (log entry 3). -/
def Obligations.ResetIsLegal : Prop := Legal State.reset

/-- 10_state.md §3, §4, 20_memory.md §1: every step from a legal state leads to a legal state: memory keeps its canonical form within the 256
addresses, the pc stays at most 256 (log entry 7: 10_state.md R22 names 257 too, which 40_dispatch.md R83 excludes), FL stays one of the
values of its mode, the opcodes stay distinct. That 0x02 is no value of mode REFERENCE_OVERLAP is the model's inference (log entry 18) from
41_alu.md §1, whose combination and replacement of bits are 92_eei_decisions.md D9 (log entry 16). -/
def Obligations.StepKeepsLegal : Prop :=
  ∀ s t : State, Legal s → step s = .next t → Legal t

/-- 70_reset_and_hazards.md §1, §2: a machine built with distinct opcodes, any `MEM_INIT` and any program, loaded through the load port and run for
any number of steps, is in a legal state, and so is every other machine run from a legal state. What is legal rests on log entries 7 (the pc is at most 256)
and 18 (the flag values of mode REFERENCE_OVERLAP, by 92_eei_decisions.md D9, log entry 16), as in `StepKeepsLegal`. A run after a load that was
refused, which the spec's host does not start (D17), is included by log entry 14; the run loop with fuel is log entry 15. -/
def Obligations.LaunchedRunsStayLegal : Prop :=
  (∀ (k : Nat) (s : State), Legal s → Legal (runFor k s)) ∧
  (∀ (p : Params) (memInit : Nat → Byte) (program : List Byte) (k : Nat), p.opcodes.WellFormed →
    Legal (runFor k (loadProgram program (resetWith p memInit)).1))

/-! ### Memory -/

/-- 20_memory.md R41: a read in range answers the cell; out of range it raises the address, of which an OutOfBounds record is made. It answers
a byte and no memory, so it changes nothing. -/
def Obligations.MemReadChecksAddress : Prop :=
  ∀ (m : Memory) (addr : Nat),
    (addr ≤ 255 → memRead m addr = .ok (m.get addr)) ∧
    (255 < addr → memRead m addr = .error (.address addr) ∧
      ∀ (n : Mnemonic) (s : State), (memoryFault n (.address addr) s).kind = .outOfBounds ∧
        (memoryFault n (.address addr) s).detail = .address addr)

/-- 20_memory.md R42: a write in range changes exactly the one cell, to the value; an address out of range, and in range a value out of range, is
refused with its detail, of which an OutOfBounds record is made. -/
def Obligations.MemWriteChangesOneCell : Prop :=
  ∀ (m : Memory) (addr v : Nat), m.wf →
    (addr ≤ 255 → v ≤ 255 → ∃ m', memWrite m addr v = .ok m' ∧
      (m'.get addr).toNat = v ∧ ∀ a, a ≠ addr → m'.get a = m.get a) ∧
    (255 < addr → memWrite m addr v = .error (.address addr)) ∧
    (addr ≤ 255 → 255 < v → memWrite m addr v = .error (.value v)) ∧
    (∀ (n : Mnemonic) (d : FaultDetail) (s : State), (memoryFault n d s).kind = .outOfBounds ∧ (memoryFault n d s).detail = d)

/-! ### The stack -/

/-- 43_stack.md (round trip): PUSH Rr and then POP Rq, in memory one after the other, where the push does not land on the POP's two bytes:
both steps complete; a q other than 7 holds the value pushed and SP is restored; POP R7 leaves that value plus one in R7; so for q = r the
register has its own value and SP too. No other register changes, and memory changes at most at the cell below SP. Rests on
92_eei_decisions.md D8 and D23. -/
def Obligations.PushPopRoundTrip : Prop :=
  ∀ (s : State) (r q : RegIndex), s.status = .running → s.mem.wf → s.params.opcodes.WellFormed →
    HoldsBytes s s.pc (encode s.params.opcodes (.push (operandByte r)) ++ encode s.params.opcodes (.pop (operandByte q))) →
    pushAddress s ≠ s.pc + 2 → pushAddress s ≠ s.pc + 3 →
    let pushed : Byte := if r = spIndex then reg spIndex s - 1 else reg r s
    ∃ t u, step s = .next t ∧ step t = .next u ∧
      (q ≠ spIndex → reg q u = pushed ∧ reg spIndex u = reg spIndex s) ∧
      (q = spIndex → reg spIndex u = pushed + 1) ∧
      (q = r → reg r u = reg r s ∧ reg spIndex u = reg spIndex s) ∧
      SameRegsBut [q, spIndex] s u ∧ SameMemBut (pushAddress s) s u ∧
      u.pc = s.pc + 4 ∧ u.fl = s.fl ∧ u.status = .running ∧ u.output = s.output

/-- 43_stack.md (stack discipline): pushing a list of registers other than R7 leaves SP lower by its length modulo 256 and, while there are at most
256 of them, the k-th value pushed k cells below where SP was, modulo 256. Rests on 92_eei_decisions.md D8 (no overflow fault). -/
def Obligations.PushesDescend : Prop :=
  ∀ (rs : List RegIndex) (s : State), s.mem.wf → (∀ r ∈ rs, r ≠ spIndex) →
    ∃ t, pushAll rs s = some t ∧
      (reg spIndex t).toNat = ((reg spIndex s).toNat + 255 * rs.length) % 256 ∧
      (rs.length ≤ 256 → ∀ k r, rs[k]? = some r →
        byteAt t (((reg spIndex s).toNat + 255 * (k + 1)) % 256) = reg r s)

/-- 20_memory.md §5: what a PUSH stores is seen by the very next fetch, whichever register is pushed and wherever the byte lands: after the
PUSH, the step decodes the bytes from the new pc on as memory held them before, but for the pushed byte (R7's is the decremented SP,
92_eei_decisions.md D23) in the cell stored to, be that the next instruction's opcode or an operand of it; it runs what it decodes, or takes
the fault of what does not decode. So a pushed 0x01 just after the PUSH is run as a HLT. Rests on
92_eei_decisions.md D12 and, for a push at SP = 0, on D8 (SP wraps without a fault); of bytes that do not decode, that a fetch past the end
faults is D4, the order of the fetch's checks D6, that operands are always fetched D7, and that nothing but the status changes D5 (log entries
8 and 16). -/
def Obligations.PushedByteIsFetchedNext : Prop :=
  (∀ (s : State) (r : RegIndex), s.status = .running → s.mem.wf → s.params.opcodes.WellFormed →
    HoldsBytes s s.pc (encode s.params.opcodes (.push (operandByte r))) →
    let pushed : Byte := if r = spIndex then reg spIndex s - 1 else reg r s
    let fetched : Nat → Option Byte := fun k =>
      if s.pc + 2 + k < 256 then
        some (if s.pc + 2 + k = pushAddress s then pushed else byteAt s (s.pc + 2 + k))
      else none
    ∃ t, step s = .next t ∧ t.pc = s.pc + 2 ∧
      (∀ i, decodeFrom s.params.opcodes fetched = .ok i → step t = exec i t) ∧
      (∀ e, decodeFrom s.params.opcodes fetched = .error e → step t = .next { t with status := .faulted (decodeFault e t) })) ∧
  (∀ (s : State) (r : RegIndex), s.status = .running → s.mem.wf → s.params.opcodes.WellFormed →
    HoldsBytes s s.pc (encode s.params.opcodes (.push (operandByte r))) →
    pushAddress s = s.pc + 2 → (if r = spIndex then reg spIndex s - 1 else reg r s) = 0x01 →
    ∃ t u, step s = .next t ∧ step t = .next u ∧ u.status = .halted ∧ u.pc = s.pc + 2)

/-! ### Runs -/

/-- 40_dispatch.md §4: a JMP to its own address runs forever: the step answers the same state, and however many steps are taken, the machine
completes every one of them, with no stop, and is still running in the same state (92_eei_decisions.md D16; the run loop with fuel is log
entry 15). -/
def Obligations.JumpToSelfNeverEnds : Prop :=
  ∀ (s : State) (r : RegIndex), s.status = .running → s.params.opcodes.WellFormed →
    HoldsBytes s s.pc (encode s.params.opcodes (.jmp (operandByte r))) → (reg r s).toNat = s.pc →
    step s = .next s ∧ ∀ k : Nat, Host.Core.run Sys2Proof.core k s = .next s ∧ runFor k s = s

/-- 70_reset_and_hazards.md §2: loading a program of at most 256 bytes puts its bytes at addresses 0, 1, …, leaves the other cells, and changes nothing else. -/
def Obligations.LoadPlacesProgram : Prop :=
  ∀ (s : State) (program : List Byte), s.mem.wf → program.length ≤ 256 →
    ∃ t, loadProgram program s = (t, none) ∧
      (∀ k b, program[k]? = some b → byteAt t k = b) ∧ (∀ a, program.length ≤ a → byteAt t a = byteAt s a) ∧
      SameRegsBut [] s t ∧ t.pc = s.pc ∧ t.fl = s.fl ∧ t.status = s.status ∧ t.output = s.output ∧ t.params = s.params

/-- 70_reset_and_hazards.md §2: a program of more than 256 bytes is refused at its 257th byte, with the address 256; the status is not changed, and the
first 256 bytes are in memory. Rests on 92_eei_decisions.md D17. -/
def Obligations.LoadRefusesByte257 : Prop :=
  ∀ (s : State) (program : List Byte), s.mem.wf → 256 < program.length →
    ∃ t, loadProgram program s = (t, some (.address 256)) ∧
      loadProgram (program.take 256) s = (t, none) ∧ t.status = s.status
end

