-- ==== Sys2Proof/Laws/Memory.lean ====
section
/-!
SUPPORT. The laws of memory: a cell holds what was last written to it, a write leaves every other cell alone, and every
operation keeps the canonical form.
-/

namespace Sys2Proof.Machine

/-- The invariant of memory, unfolded at its head cell. -/
theorem Memory.wf_cons {c : Host.Cell} {m : Memory} :
    Memory.wf (c :: m) ↔
      (∀ d ∈ m, c.1 < d.1) ∧ c.1 < 256 ∧ c.2 ≠ unlistedByte ∧ Memory.wf m := by
  simp only [Memory.wf, List.pairwise_cons, List.forall_mem_cons]
  tauto

/-- An address that no cell lists reads as the unlisted byte. -/
theorem Memory.get_of_not_listed {m : Memory} {a : Nat} (h : ∀ c ∈ m, c.1 ≠ a) :
    m.get a = unlistedByte := by
  induction m with
  | nil => rfl
  | cons c m ih =>
    have hc : a ≠ c.1 := fun e => h c (by simp) e.symm
    simp [Memory.get, hc, ih fun d hd => h d (by simp [hd])]

/-- A write leaves every other cell alone. -/
theorem Memory.get_set_other (m : Memory) {a b : Nat} (v : Byte) (h : b ≠ a) :
    (m.set a v).get b = m.get b := by
  induction m with
  | nil =>
    simp only [Memory.set]
    split <;> simp [Memory.get, h]
  | cons c m ih =>
    simp only [Memory.set]
    split_ifs with h1 h2 h3 h4 <;> simp_all [Memory.get]

/-- A cell holds what was last written to it. -/
theorem Memory.get_set_self {m : Memory} (hm : m.wf) (a : Nat) (v : Byte) :
    (m.set a v).get a = v := by
  induction m with
  | nil =>
    simp only [Memory.set]
    split <;> simp_all [Memory.get]
  | cons c m ih =>
    obtain ⟨hlt, -, -, hm'⟩ := Memory.wf_cons.1 hm
    simp only [Memory.set]
    split_ifs with h1 h2 h3 h4
    · rw [h2]
      refine Memory.get_of_not_listed fun d hd => ?_
      rcases List.mem_cons.1 hd with rfl | hd
      · omega
      · have := hlt d hd; omega
    · simp [Memory.get]
    · rw [h4]
      refine Memory.get_of_not_listed fun d hd => ?_
      have := hlt d hd
      omega
    · simp [Memory.get]
    · simp [Memory.get, h3, ih hm']

/-- Every cell of memory after a write is the one written or was there before. -/
theorem Memory.mem_set {m : Memory} {a : Nat} {v : Byte} {c : Host.Cell} (h : c ∈ m.set a v) :
    (c = (a, v) ∧ v ≠ unlistedByte) ∨ c ∈ m := by
  induction m with
  | nil =>
    simp only [Memory.set] at h
    split at h <;> simp_all
  | cons d m ih =>
    simp only [Memory.set] at h
    split_ifs at h <;> simp only [List.mem_cons] at h ⊢ <;> grind

/-- A write inside the address space keeps the canonical form. -/
theorem Memory.set_wf {m : Memory} (hm : m.wf) {a : Nat} (ha : a < 256) (v : Byte) :
    (m.set a v).wf := by
  induction m with
  | nil =>
    simp only [Memory.set]
    split <;> simp_all [Memory.wf]
  | cons c m ih =>
    obtain ⟨hlt, hc, hv, hm'⟩ := Memory.wf_cons.1 hm
    simp only [Memory.set]
    split_ifs with h1 h2 h3 h4
    · exact hm
    · refine Memory.wf_cons.2 ⟨fun d hd => ?_, ha, h2, hm⟩
      rcases List.mem_cons.1 hd with rfl | hd
      · exact h1
      · exact h1.trans (hlt d hd)
    · exact hm'
    · exact Memory.wf_cons.2 ⟨fun d hd => by have := hlt d hd; simp only; omega, ha, h4, hm'⟩
    · refine Memory.wf_cons.2 ⟨fun d hd => ?_, hc, hv, ih hm'⟩
      rcases Memory.mem_set hd with ⟨rfl, -⟩ | hd
      · simp only; omega
      · exact hlt d hd

/-- `MemRead` in range answers the cell. -/
theorem memRead_of_lt {m : Memory} {a : Nat} (h : a < 256) : memRead m a = .ok (m.get a) := if_pos h

/-- `MemRead` out of range raises the address. -/
theorem memRead_of_ge {m : Memory} {a : Nat} (h : 256 ≤ a) : memRead m a = .error (.address a) :=
  if_neg (Nat.not_lt.2 h)

/-- `MemWrite` of a byte in range changes the cell. -/
theorem memWrite_byte {m : Memory} {a : Nat} (h : a < 256) (v : Byte) :
    memWrite m a v.toNat = .ok (m.set a v) := by
  simp [memWrite, h, v.isLt]

/-- Everything `MemWrite` can do when it answers: the address and the value were in range and one cell was set. -/
theorem memWrite_ok {m m' : Memory} {a v : Nat} (h : memWrite m a v = .ok m') :
    a < 256 ∧ v < 256 ∧ m' = m.set a (BitVec.ofNat 8 v) := by
  simp only [memWrite] at h
  split_ifs at h with h1 h2
  exact ⟨h1, h2, (Except.ok.inj h).symm⟩

/-- `MemWrite` keeps the canonical form. -/
theorem memWrite_wf {m m' : Memory} {a v : Nat} (hm : m.wf) (h : memWrite m a v = .ok m') : m'.wf := by
  obtain ⟨ha, -, rfl⟩ := memWrite_ok h
  exact Memory.set_wf hm ha _

/-- Storing a run of bytes keeps the canonical form. -/
theorem storeBytes_wf {m : Memory} (hm : m.wf) (a : Nat) (bs : List Byte) : (storeBytes m a bs).wf := by
  induction bs generalizing m a with
  | nil => exact hm
  | cons b bs ih =>
    refine ih ?_ (a + 1)
    split
    · next h => exact Memory.set_wf hm h b
    · exact hm

/-- The memory made from a function is in canonical form. -/
theorem Memory.ofFn_wf (f : Nat → Byte) : (Memory.ofFn f).wf := by
  constructor
  · refine List.Pairwise.filterMap (R := (· < ·)) _ ?_ List.pairwise_lt_range
    intro a b hab x hx y hy
    simp only [Option.ite_none_left_eq_some, Option.some.injEq] at hx hy
    obtain ⟨-, rfl⟩ := hx
    obtain ⟨-, rfl⟩ := hy
    exact hab
  · intro c hc
    obtain ⟨a, ha, h⟩ := List.mem_filterMap.1 hc
    simp only [Option.ite_none_left_eq_some, Option.some.injEq] at h
    obtain ⟨hne, rfl⟩ := h
    exact ⟨List.mem_range.1 ha, hne⟩

/-- In canonical memory, a listed cell is what its address reads as. -/
theorem Memory.get_of_mem {m : Memory} (hm : m.wf) {c : Host.Cell} (hc : c ∈ m) : m.get c.1 = c.2 := by
  induction m with
  | nil => cases hc
  | cons d m ih =>
    obtain ⟨hlt, -, -, hm'⟩ := Memory.wf_cons.1 hm
    rcases List.mem_cons.1 hc with rfl | hc
    · simp [Memory.get]
    · have : c.1 ≠ d.1 := by have := hlt c hc; omega
      simp [Memory.get, this, ih hm' hc]

/-- The memory made from a function reads as the function at every address. -/
theorem Memory.get_ofFn (f : Nat → Byte) {a : Nat} (ha : a < 256) : (Memory.ofFn f).get a = f a := by
  by_cases h : f a = unlistedByte
  · rw [h]
    refine Memory.get_of_not_listed fun c hc e => ?_
    obtain ⟨b, -, hb⟩ := List.mem_filterMap.1 hc
    simp only [Option.ite_none_left_eq_some, Option.some.injEq] at hb
    obtain ⟨hne, rfl⟩ := hb
    have e' : b = a := e
    exact hne (e' ▸ h)
  · refine Memory.get_of_mem (Memory.ofFn_wf f) (c := (a, f a)) (List.mem_filterMap.2 ⟨a, List.mem_range.2 ha, ?_⟩)
    simp [h]

/-- The load port keeps the canonical form, and changes nothing but memory. -/
theorem loadWrite_ok {a v : Nat} {s t : State} (h : loadWrite a v s = .ok t) :
    ∃ m, memWrite s.mem a v = .ok m ∧ t = setMem m s := by
  simp only [loadWrite] at h
  split at h
  · next m hm => exact ⟨m, hm, (Except.ok.inj h).symm⟩
  · cases h

/-- Loading changes nothing but memory, and keeps its canonical form. -/
theorem loadFrom_spec (a : Nat) (bs : List Byte) (s : State) :
    ∃ m, (loadFrom a bs s).1 = setMem m s ∧ (s.mem.wf → m.wf) := by
  induction bs generalizing a s with
  | nil => exact ⟨s.mem, rfl, id⟩
  | cons b bs ih =>
    simp only [loadFrom]
    split
    · next t ht =>
      obtain ⟨m, hm, rfl⟩ := loadWrite_ok ht
      obtain ⟨m', h1, h2⟩ := ih (a + 1) (setMem m s)
      exact ⟨m', h1, fun hs => h2 (memWrite_wf hs hm)⟩
    · exact ⟨s.mem, rfl, id⟩

end Sys2Proof.Machine
end

