-- ==== Sys2Proof/Laws/State.lean ====
section
/-!
SUPPORT. What each update of the state does to each field, one lemma per field per update, true by `rfl`; and reading a
register through each update.
-/

namespace Sys2Proof.Machine

variable (i : RegIndex) (v : Byte) (m : Memory) (n : Mnemonic) (f : FaultRecord) (s : State)

/-! ### setReg -/
@[simp] theorem setReg_pc : (setReg i v s).pc = s.pc := rfl
@[simp] theorem setReg_fl : (setReg i v s).fl = s.fl := rfl
@[simp] theorem setReg_status : (setReg i v s).status = s.status := rfl
@[simp] theorem setReg_output : (setReg i v s).output = s.output := rfl
@[simp] theorem setReg_mem : (setReg i v s).mem = s.mem := rfl
@[simp] theorem setReg_params : (setReg i v s).params = s.params := rfl

/-- A register holds what was last written to it. -/
@[simp] theorem reg_setReg_self : reg i (setReg i v s) = v := by simp [reg, setReg]

/-- Writing a register leaves every other register alone. -/
theorem reg_setReg_other {k : RegIndex} (h : k ≠ i) : reg k (setReg i v s) = reg k s := by
  simp only [reg, setReg, Fin.getElem_fin]
  rw [Vector.getElem_set_ne]
  intro e
  exact h (Fin.ext e.symm)

/-- Reading any register after writing one. -/
theorem reg_setReg (k : RegIndex) : reg k (setReg i v s) = if k = i then v else reg k s := by
  split
  · next h => rw [h, reg_setReg_self]
  · next h => exact reg_setReg_other i v s h

/-! ### setFl -/
@[simp] theorem setFl_regs : (setFl v s).regs = s.regs := rfl
@[simp] theorem setFl_pc : (setFl v s).pc = s.pc := rfl
@[simp] theorem setFl_fl : (setFl v s).fl = v := rfl
@[simp] theorem setFl_status : (setFl v s).status = s.status := rfl
@[simp] theorem setFl_output : (setFl v s).output = s.output := rfl
@[simp] theorem setFl_mem : (setFl v s).mem = s.mem := rfl
@[simp] theorem setFl_params : (setFl v s).params = s.params := rfl
@[simp] theorem reg_setFl : reg i (setFl v s) = reg i s := rfl

/-! ### setMem -/
@[simp] theorem setMem_regs : (setMem m s).regs = s.regs := rfl
@[simp] theorem setMem_pc : (setMem m s).pc = s.pc := rfl
@[simp] theorem setMem_fl : (setMem m s).fl = s.fl := rfl
@[simp] theorem setMem_status : (setMem m s).status = s.status := rfl
@[simp] theorem setMem_output : (setMem m s).output = s.output := rfl
@[simp] theorem setMem_mem : (setMem m s).mem = m := rfl
@[simp] theorem setMem_params : (setMem m s).params = s.params := rfl
@[simp] theorem reg_setMem : reg i (setMem m s) = reg i s := rfl

/-! ### emit -/
@[simp] theorem emit_regs : (emit v s).regs = s.regs := rfl
@[simp] theorem emit_pc : (emit v s).pc = s.pc := rfl
@[simp] theorem emit_fl : (emit v s).fl = s.fl := rfl
@[simp] theorem emit_status : (emit v s).status = s.status := rfl
@[simp] theorem emit_output : (emit v s).output = s.output ++ [v] := rfl
@[simp] theorem emit_mem : (emit v s).mem = s.mem := rfl
@[simp] theorem emit_params : (emit v s).params = s.params := rfl
@[simp] theorem reg_emit : reg i (emit v s) = reg i s := rfl

/-! ### halt -/
@[simp] theorem halt_regs : (halt s).regs = s.regs := rfl
@[simp] theorem halt_pc : (halt s).pc = s.pc := rfl
@[simp] theorem halt_fl : (halt s).fl = s.fl := rfl
@[simp] theorem halt_status : (halt s).status = .halted := rfl
@[simp] theorem halt_output : (halt s).output = s.output := rfl
@[simp] theorem halt_mem : (halt s).mem = s.mem := rfl
@[simp] theorem halt_params : (halt s).params = s.params := rfl
@[simp] theorem reg_halt : reg i (halt s) = reg i s := rfl

/-! ### advance -/
@[simp] theorem advance_regs : (advance n s).regs = s.regs := rfl
@[simp] theorem advance_pc : (advance n s).pc = s.pc + width n := rfl
@[simp] theorem advance_fl : (advance n s).fl = s.fl := rfl
@[simp] theorem advance_status : (advance n s).status = s.status := rfl
@[simp] theorem advance_output : (advance n s).output = s.output := rfl
@[simp] theorem advance_mem : (advance n s).mem = s.mem := rfl
@[simp] theorem advance_params : (advance n s).params = s.params := rfl
@[simp] theorem reg_advance : reg i (advance n s) = reg i s := rfl

/-! ### jumpTo -/
@[simp] theorem jumpTo_regs : (jumpTo v s).regs = s.regs := rfl
@[simp] theorem jumpTo_pc : (jumpTo v s).pc = v.toNat := rfl
@[simp] theorem jumpTo_fl : (jumpTo v s).fl = s.fl := rfl
@[simp] theorem jumpTo_status : (jumpTo v s).status = s.status := rfl
@[simp] theorem jumpTo_output : (jumpTo v s).output = s.output := rfl
@[simp] theorem jumpTo_mem : (jumpTo v s).mem = s.mem := rfl
@[simp] theorem jumpTo_params : (jumpTo v s).params = s.params := rfl
@[simp] theorem reg_jumpTo : reg i (jumpTo v s) = reg i s := rfl

/-! ### raiseFault -/
@[simp] theorem raiseFault_regs : (raiseFault f s).regs = s.regs := rfl
@[simp] theorem raiseFault_pc : (raiseFault f s).pc = s.pc := rfl
@[simp] theorem raiseFault_fl : (raiseFault f s).fl = s.fl := rfl
@[simp] theorem raiseFault_status : (raiseFault f s).status = .faulted f := rfl
@[simp] theorem raiseFault_output : (raiseFault f s).output = s.output := rfl
@[simp] theorem raiseFault_mem : (raiseFault f s).mem = s.mem := rfl
@[simp] theorem raiseFault_params : (raiseFault f s).params = s.params := rfl
@[simp] theorem reg_raiseFault : reg i (raiseFault f s) = reg i s := rfl

/-! ### The stack pointer's updates -/
@[simp] theorem decrementSp_pc : (decrementSp s).pc = s.pc := rfl
@[simp] theorem decrementSp_fl : (decrementSp s).fl = s.fl := rfl
@[simp] theorem decrementSp_status : (decrementSp s).status = s.status := rfl
@[simp] theorem decrementSp_output : (decrementSp s).output = s.output := rfl
@[simp] theorem decrementSp_mem : (decrementSp s).mem = s.mem := rfl
@[simp] theorem decrementSp_params : (decrementSp s).params = s.params := rfl
@[simp] theorem incrementSp_pc : (incrementSp s).pc = s.pc := rfl
@[simp] theorem incrementSp_fl : (incrementSp s).fl = s.fl := rfl
@[simp] theorem incrementSp_status : (incrementSp s).status = s.status := rfl
@[simp] theorem incrementSp_output : (incrementSp s).output = s.output := rfl
@[simp] theorem incrementSp_mem : (incrementSp s).mem = s.mem := rfl
@[simp] theorem incrementSp_params : (incrementSp s).params = s.params := rfl

/-- Reading a register after SP was decremented. -/
theorem reg_decrementSp (k : RegIndex) :
    reg k (decrementSp s) = if k = spIndex then reg spIndex s - 1 else reg k s := reg_setReg ..

/-- Reading a register after SP was incremented. -/
theorem reg_incrementSp (k : RegIndex) :
    reg k (incrementSp s) = if k = spIndex then reg spIndex s + 1 else reg k s := reg_setReg ..

end Sys2Proof.Machine
end

