-- ==== Sys2Proof/Laws/Decode.lean ====
section
/-!
SUPPORT. The opcode map looked up both ways, what the decoder reads, and what a fetch does.
-/

namespace Sys2Proof

theorem mem_allMnemonics (n : Mnemonic) : n ∈ allMnemonics := by cases n <;> decide

/-- A looked-up mnemonic has the opcode byte it was looked up by. -/
theorem opcodeOf_of_decodeOpcode {m : OpcodeMap} {op : Byte} {n : Mnemonic} (h : decodeOpcode m op = some n) :
    opcodeOf m n = op := by
  have := List.find?_some h
  simpa using this

/-- No mnemonic has an illegal byte. -/
theorem decodeOpcode_eq_none {m : OpcodeMap} {op : Byte} :
    decodeOpcode m op = none ↔ ∀ n, opcodeOf m n ≠ op := by
  simp only [decodeOpcode, List.find?_eq_none, beq_iff_eq]
  exact ⟨fun h n => h n (mem_allMnemonics n), fun h n _ => h n⟩

/-- Under a well-formed map a mnemonic's opcode byte is looked up as that mnemonic. -/
theorem decodeOpcode_opcodeOf {m : OpcodeMap} (hm : m.WellFormed) (n : Mnemonic) :
    decodeOpcode m (opcodeOf m n) = some n := by
  have inj : ∀ x y, opcodeOf m x = opcodeOf m y → x = y := fun x y =>
    List.inj_on_of_nodup_map hm (mem_allMnemonics x) (mem_allMnemonics y)
  cases h : decodeOpcode m (opcodeOf m n) with
  | none => exact absurd rfl (decodeOpcode_eq_none.1 h n)
  | some k => rw [inj _ _ (opcodeOf_of_decodeOpcode h)]

theorem length_operandBytes (i : Instr) : (operandBytes i).length + 1 = width (mnemonicOf i) := by
  cases i <;> rfl

/-- Reading the operand bytes of an instruction gives the instruction. -/
theorem decodeOperands_of_bytes {byteAt : Nat → Option Byte} (op : Byte) (i : Instr)
    (h : ∀ k b, (operandBytes i)[k]? = some b → byteAt (k + 1) = some b) :
    decodeOperands op byteAt (mnemonicOf i) = .ok i := by
  cases i with
  | hlt => rfl
  | ldi a b | mul a b | cmp a b =>
    have h1 := h 0 a rfl
    have h2 := h 1 b rfl
    simp [decodeOperands, mnemonicOf, readOperandsAB, h1, h2]
  | prn a | push a | pop a | jmp a | jeq a | jne a =>
    have h1 := h 0 a rfl
    simp [decodeOperands, mnemonicOf, readOperandA, h1]

/-- What an instruction read by the operand reader looks like. -/
theorem decodeOperands_ok {byteAt : Nat → Option Byte} {op : Byte} {n : Mnemonic} {i : Instr}
    (h : decodeOperands op byteAt n = .ok i) :
    mnemonicOf i = n ∧ ∀ k b, (operandBytes i)[k]? = some b → byteAt (k + 1) = some b := by
  cases n <;> simp only [decodeOperands, readOperandA, readOperandsAB] at h <;>
    (repeat' split at h) <;> cases h <;>
    refine ⟨rfl, fun k b hb => ?_⟩ <;>
    (rcases k with _ | _ | k <;> simp_all [operandBytes])

namespace Machine

theorem byteAtPc_of_lt {s : State} {k : Nat} (h : s.pc + k < 256) : byteAtPc s k = some (s.mem.get (s.pc + k)) := by
  simp [byteAtPc, memRead_of_lt h, Except.toOption]

theorem byteAtPc_of_ge {s : State} {k : Nat} (h : 256 ≤ s.pc + k) : byteAtPc s k = none := by
  simp [byteAtPc, memRead_of_ge h, Except.toOption]

/-- Where a fetched instruction comes from: its opcode and operand bytes all lie inside the address space. -/
theorem fetch_ok_end {s : State} {i : Instr} (h : fetch s = .ok i) : s.pc + width (mnemonicOf i) ≤ 256 := by
  by_contra hlt
  have h0 : ∀ k, byteAtPc s k ≠ none → s.pc + k < 256 := fun k hk => by
    by_contra hge
    exact hk (byteAtPc_of_ge (Nat.not_lt.1 hge))
  have hd : decodeFrom s.params.opcodes (byteAtPc s) = .ok i := by
    simp only [fetch] at h
    split at h
    · next j hj => cases h; exact hj
    · cases h
  simp only [decodeFrom] at hd
  split at hd
  · cases hd
  · next op hop =>
    split at hd
    · cases hd
    · next n hn =>
      obtain ⟨-, hb⟩ := decodeOperands_ok hd
      have hop' := h0 0 (by rw [hop]; simp)
      have hlen := length_operandBytes i
      rcases hl : (operandBytes i).length with _ | l
      · omega
      · have hk : l < (operandBytes i).length := by omega
        have := h0 (l + 1) (by rw [hb l _ (List.getElem?_eq_getElem hk)]; simp)
        omega

/-- What a step from a running state does. -/
theorem step_running {s : State} (h : s.status = .running) :
    step s = match fetch s with
      | .error f => .next (raiseFault f s)
      | .ok i => exec i s := by
  cases hf : fetch s <;> simp only [step, h, hf]

end Machine

end Sys2Proof
end

