-- ==== Sys2Proof/Laws/Operations.lean ====
section
/-!
SUPPORT. One lemma per shared operation that says everything it can do, and each meaning in closed form: what it answers
when its register operands name registers, and which fault it takes when one does not.
-/

namespace Sys2Proof.Machine

/-! ### Operands -/

/-- An operand byte below 8 is the register of that index. -/
theorem checkReg_ok (n : Mnemonic) {v : Byte} (h : v.toNat < 8) (s : State) :
    checkReg n v s = .ok ⟨v.toNat, h⟩ := dif_pos h

/-- An operand byte of 8 or more raises the OutOfBounds fault of the instruction. -/
theorem checkReg_bad (n : Mnemonic) {v : Byte} (h : 8 ≤ v.toNat) (s : State) :
    checkReg n v s = .error (registerFault n v s) := dif_neg (Nat.not_lt.2 h)

@[simp] theorem toNat_operandByte (r : RegIndex) : (operandByte r).toNat = r.val := by
  simp [operandByte, Nat.mod_eq_of_lt (show r.val < 256 by omega)]

/-- The operand byte of a register names it. -/
@[simp] theorem checkReg_operandByte (n : Mnemonic) (r : RegIndex) (s : State) :
    checkReg n (operandByte r) s = .ok r := by
  rw [checkReg_ok n (by rw [toNat_operandByte]; exact r.isLt)]
  simp

/-- SP is always an address (20_memory.md R44). -/
theorem spAddress_lt (s : State) : spAddress s < 256 := (reg spIndex s).isLt

/-- The address of a push is always an address (20_memory.md R44). -/
theorem pushAddress_lt (s : State) : pushAddress s < 256 := spAddress_lt _

/-- A store at SP never faults: it sets the cell at SP and nothing else. -/
theorem storeAtSp_eq (n : Mnemonic) (v : Byte) (s : State) :
    storeAtSp n v s = .ok (setMem (s.mem.set (spAddress s) v) s) := by
  simp [storeAtSp, memWrite_byte (spAddress_lt s)]

/-- A load at SP never faults: it answers the cell at SP. -/
theorem loadAtSp_eq (n : Mnemonic) (s : State) : loadAtSp n s = .ok (s.mem.get (spAddress s)) := by
  simp [loadAtSp, memRead_of_lt (spAddress_lt s)]

/-! ### Committing a step -/

/-- A step that commits answers a next state, whichever way it ends. -/
theorem commit_next (s : State) (r : Except FaultRecord State) : ∃ t, commit s r = .next t := by
  cases r <;> exact ⟨_, rfl⟩

/-- What a committed step can be: the state it computed, or its own state with the fault as its status. -/
theorem commit_cases {s t : State} {r : Except FaultRecord State} (h : commit s r = .next t) :
    r = .ok t ∨ ∃ f, r = .error f ∧ t = raiseFault f s := by
  cases r with
  | ok u => exact .inl (by simpa [commit] using h)
  | error f => exact .inr ⟨f, rfl, by simpa [commit] using h.symm⟩

/-! ### The meanings in closed form -/

section
variable {a b : Byte} (imm : Byte) (s : State)

theorem execHlt_eq : execHlt s = .next (halt s) := rfl

theorem execLdi_ok (h : a.toNat < 8) :
    execLdi a imm s = .next (advance .ldi (setReg ⟨a.toNat, h⟩ imm s)) := by
  simp only [execLdi, checkReg_ok _ h]; rfl

theorem execLdi_bad (h : 8 ≤ a.toNat) : execLdi a imm s = .next (raiseFault (registerFault .ldi a s) s) := by
  simp only [execLdi, checkReg_bad _ h]; rfl

theorem execPrn_ok (h : a.toNat < 8) :
    execPrn a s = .next (advance .prn (emit (reg ⟨a.toNat, h⟩ s) s)) := by
  simp only [execPrn, checkReg_ok _ h]; rfl

theorem execPrn_bad (h : 8 ≤ a.toNat) : execPrn a s = .next (raiseFault (registerFault .prn a s) s) := by
  simp only [execPrn, checkReg_bad _ h]; rfl

theorem execMul_ok (ha : a.toNat < 8) (hb : b.toNat < 8) :
    execMul a b s = .next (advance .mul (setReg ⟨a.toNat, ha⟩
      (aluMul (reg ⟨a.toNat, ha⟩ s) (reg ⟨b.toNat, hb⟩ s)) s)) := by
  simp only [execMul, checkReg_ok _ ha, checkReg_ok _ hb]; rfl

theorem execMul_bad_a (h : 8 ≤ a.toNat) : execMul a b s = .next (raiseFault (registerFault .mul a s) s) := by
  simp only [execMul, checkReg_bad _ h]; rfl

theorem execMul_bad_b (ha : a.toNat < 8) (hb : 8 ≤ b.toNat) :
    execMul a b s = .next (raiseFault (registerFault .mul b s) s) := by
  simp only [execMul, checkReg_ok _ ha, checkReg_bad _ hb]; rfl

theorem execCmp_ok (ha : a.toNat < 8) (hb : b.toNat < 8) :
    execCmp a b s = .next (advance .cmp (setFl
      (compareFlags s.params.cmpMode (reg ⟨a.toNat, ha⟩ s) (reg ⟨b.toNat, hb⟩ s)) s)) := by
  simp only [execCmp, checkReg_ok _ ha, checkReg_ok _ hb]; rfl

theorem execCmp_bad_a (h : 8 ≤ a.toNat) : execCmp a b s = .next (raiseFault (registerFault .cmp a s) s) := by
  simp only [execCmp, checkReg_bad _ h]; rfl

theorem execCmp_bad_b (ha : a.toNat < 8) (hb : 8 ≤ b.toNat) :
    execCmp a b s = .next (raiseFault (registerFault .cmp b s) s) := by
  simp only [execCmp, checkReg_ok _ ha, checkReg_bad _ hb]; rfl

theorem execPush_ok (h : a.toNat < 8) :
    execPush a s = .next (advance .push (setMem
      (s.mem.set (pushAddress s) (reg ⟨a.toNat, h⟩ (decrementSp s))) (decrementSp s))) := by
  simp only [execPush, checkReg_ok _ h, storeAtSp_eq]; rfl

theorem execPush_bad (h : 8 ≤ a.toNat) : execPush a s = .next (raiseFault (registerFault .push a s) s) := by
  simp only [execPush, checkReg_bad _ h]; rfl

theorem execPop_ok (h : a.toNat < 8) :
    execPop a s = .next (advance .pop (incrementSp
      (setReg ⟨a.toNat, h⟩ (s.mem.get (spAddress s)) s))) := by
  simp only [execPop, checkReg_ok _ h, loadAtSp_eq]; rfl

theorem execPop_bad (h : 8 ≤ a.toNat) : execPop a s = .next (raiseFault (registerFault .pop a s) s) := by
  simp only [execPop, checkReg_bad _ h]; rfl

theorem execJmp_ok (h : a.toNat < 8) : execJmp a s = .next (jumpTo (reg ⟨a.toNat, h⟩ s) s) := by
  simp only [execJmp, checkReg_ok _ h]; rfl

theorem execJmp_bad (h : 8 ≤ a.toNat) : execJmp a s = .next (raiseFault (registerFault .jmp a s) s) := by
  simp only [execJmp, checkReg_bad _ h]; rfl

theorem execJeq_ok (h : a.toNat < 8) :
    execJeq a s = .next (branch .jeq (equalBit s.fl) ⟨a.toNat, h⟩ s) := by
  simp only [execJeq, checkReg_ok _ h]; rfl

theorem execJeq_bad (h : 8 ≤ a.toNat) : execJeq a s = .next (raiseFault (registerFault .jeq a s) s) := by
  simp only [execJeq, checkReg_bad _ h]; rfl

theorem execJne_ok (h : a.toNat < 8) :
    execJne a s = .next (branch .jne (!equalBit s.fl) ⟨a.toNat, h⟩ s) := by
  simp only [execJne, checkReg_ok _ h]; rfl

theorem execJne_bad (h : 8 ≤ a.toNat) : execJne a s = .next (raiseFault (registerFault .jne a s) s) := by
  simp only [execJne, checkReg_bad _ h]; rfl

end

/-! ### A branch changes the pc alone -/

@[simp] theorem branch_regs (n : Mnemonic) (c : Bool) (r : RegIndex) (s : State) : (branch n c r s).regs = s.regs := by
  cases c <;> rfl
@[simp] theorem branch_fl (n : Mnemonic) (c : Bool) (r : RegIndex) (s : State) : (branch n c r s).fl = s.fl := by
  cases c <;> rfl
@[simp] theorem branch_status (n : Mnemonic) (c : Bool) (r : RegIndex) (s : State) :
    (branch n c r s).status = s.status := by cases c <;> rfl
@[simp] theorem branch_output (n : Mnemonic) (c : Bool) (r : RegIndex) (s : State) :
    (branch n c r s).output = s.output := by cases c <;> rfl
@[simp] theorem branch_mem (n : Mnemonic) (c : Bool) (r : RegIndex) (s : State) : (branch n c r s).mem = s.mem := by
  cases c <;> rfl
@[simp] theorem branch_params (n : Mnemonic) (c : Bool) (r : RegIndex) (s : State) :
    (branch n c r s).params = s.params := by cases c <;> rfl
@[simp] theorem reg_branch (k : RegIndex) (n : Mnemonic) (c : Bool) (r : RegIndex) (s : State) :
    reg k (branch n c r s) = reg k s := by cases c <;> rfl
theorem branch_pc (n : Mnemonic) (c : Bool) (r : RegIndex) (s : State) :
    (branch n c r s).pc = if c then (reg r s).toNat else s.pc + width n := by cases c <;> rfl

/-! ### The flags -/

/-- The value that CMP gives FL is a legal one of its mode. -/
theorem compareFlags_legal (mode : CmpFlagMode) (u v : Byte) : compareFlags mode u v ∈ legalFlags mode := by
  cases mode <;> simp only [compareFlags, compareExclusive, compareOverlap] <;> split_ifs <;>
    first | decide | (exfalso; omega)

end Sys2Proof.Machine
end

