-- ==== Sys2Proof/Laws/PerInstr.lean ====
section
/-!
SUPPORT. A fact about every instruction, one lemma per constructor: the encoding of an instruction has the number of bytes
that the width column of 30_encoding.md R66 gives its mnemonic, under every opcode map.
-/

namespace Sys2Proof.Laws.EncodedLength

/-- An instruction encodes to as many bytes as its mnemonic is wide. -/
def Statement (i : Instr) : Prop := ∀ m, (encode m i).length = width (mnemonicOf i)

theorem hlt : Statement .hlt := fun _ => rfl
theorem ldi (a imm : Byte) : Statement (.ldi a imm) := fun _ => rfl
theorem prn (a : Byte) : Statement (.prn a) := fun _ => rfl
theorem mul (a b : Byte) : Statement (.mul a b) := fun _ => rfl
theorem push (a : Byte) : Statement (.push a) := fun _ => rfl
theorem pop (a : Byte) : Statement (.pop a) := fun _ => rfl
theorem cmp (a b : Byte) : Statement (.cmp a b) := fun _ => rfl
theorem jmp (a : Byte) : Statement (.jmp a) := fun _ => rfl
theorem jeq (a : Byte) : Statement (.jeq a) := fun _ => rfl
theorem jne (a : Byte) : Statement (.jne a) := fun _ => rfl

end Sys2Proof.Laws.EncodedLength
end

