-- ==== Sys2Proof/Laws/Steps.lean ====
section
/-!
SUPPORT. Everything an instruction can do, and everything a step can do, said once: the inversion lemmas that a proof over all
instructions takes its cases from.
-/

namespace Sys2Proof.Machine

/-- What instruction `i` makes of state `s`: one constructor per instruction whose register operands name registers, and one for the fault
of an operand that names none. -/
inductive Effect (s : State) : Instr → State → Prop where
  | hlt : Effect s .hlt (halt s)
  | ldi (d : RegIndex) (imm : Byte) : Effect s (.ldi (operandByte d) imm) (advance .ldi (setReg d imm s))
  | prn (r : RegIndex) : Effect s (.prn (operandByte r)) (advance .prn (emit (reg r s) s))
  | mul (d r : RegIndex) :
      Effect s (.mul (operandByte d) (operandByte r)) (advance .mul (setReg d (aluMul (reg d s) (reg r s)) s))
  | push (r : RegIndex) : Effect s (.push (operandByte r))
      (advance .push (setMem (s.mem.set (pushAddress s) (reg r (decrementSp s))) (decrementSp s)))
  | pop (d : RegIndex) :
      Effect s (.pop (operandByte d)) (advance .pop (incrementSp (setReg d (s.mem.get (spAddress s)) s)))
  | cmp (a b : RegIndex) : Effect s (.cmp (operandByte a) (operandByte b))
      (advance .cmp (setFl (compareFlags s.params.cmpMode (reg a s) (reg b s)) s))
  | jmp (r : RegIndex) : Effect s (.jmp (operandByte r)) (jumpTo (reg r s) s)
  | jeq (r : RegIndex) : Effect s (.jeq (operandByte r)) (branch .jeq (equalBit s.fl) r s)
  | jne (r : RegIndex) : Effect s (.jne (operandByte r)) (branch .jne (!equalBit s.fl) r s)
  | bad (i : Instr) (v : Byte) (mem : v ∈ registerOperands i) (range : 8 ≤ v.toNat) :
      Effect s i (raiseFault (registerFault (mnemonicOf i) v s) s)

/-- A byte below 8 is the operand byte of a register. -/
theorem operandByte_of_lt {v : Byte} (h : v.toNat < 8) : operandByte ⟨v.toNat, h⟩ = v := by simp [operandByte]

/-- Everything an instruction can do. -/
theorem exec_effect {s t : State} {i : Instr} (h : exec i s = .next t) : Effect s i t := by
  cases i with
  | hlt => cases h; exact .hlt
  | ldi a imm =>
    by_cases ha : a.toNat < 8
    · cases (execLdi_ok imm s ha).symm.trans h
      simpa only [operandByte_of_lt] using Effect.ldi (s := s) ⟨a.toNat, ha⟩ imm
    · cases (execLdi_bad imm s (Nat.not_lt.1 ha)).symm.trans h
      exact .bad (.ldi a imm) a (by simp [registerOperands]) (Nat.not_lt.1 ha)
  | prn a =>
    by_cases ha : a.toNat < 8
    · cases (execPrn_ok s ha).symm.trans h
      simpa only [operandByte_of_lt] using Effect.prn (s := s) ⟨a.toNat, ha⟩
    · cases (execPrn_bad s (Nat.not_lt.1 ha)).symm.trans h
      exact .bad (.prn a) a (by simp [registerOperands]) (Nat.not_lt.1 ha)
  | mul a b =>
    by_cases ha : a.toNat < 8
    · by_cases hb : b.toNat < 8
      · cases (execMul_ok s ha hb).symm.trans h
        simpa only [operandByte_of_lt] using Effect.mul (s := s) ⟨a.toNat, ha⟩ ⟨b.toNat, hb⟩
      · cases (execMul_bad_b s ha (Nat.not_lt.1 hb)).symm.trans h
        exact .bad (.mul a b) b (by simp [registerOperands]) (Nat.not_lt.1 hb)
    · cases (execMul_bad_a s (Nat.not_lt.1 ha)).symm.trans h
      exact .bad (.mul a b) a (by simp [registerOperands]) (Nat.not_lt.1 ha)
  | push a =>
    by_cases ha : a.toNat < 8
    · cases (execPush_ok s ha).symm.trans h
      simpa only [operandByte_of_lt] using Effect.push (s := s) ⟨a.toNat, ha⟩
    · cases (execPush_bad s (Nat.not_lt.1 ha)).symm.trans h
      exact .bad (.push a) a (by simp [registerOperands]) (Nat.not_lt.1 ha)
  | pop a =>
    by_cases ha : a.toNat < 8
    · cases (execPop_ok s ha).symm.trans h
      simpa only [operandByte_of_lt] using Effect.pop (s := s) ⟨a.toNat, ha⟩
    · cases (execPop_bad s (Nat.not_lt.1 ha)).symm.trans h
      exact .bad (.pop a) a (by simp [registerOperands]) (Nat.not_lt.1 ha)
  | cmp a b =>
    by_cases ha : a.toNat < 8
    · by_cases hb : b.toNat < 8
      · cases (execCmp_ok s ha hb).symm.trans h
        simpa only [operandByte_of_lt] using Effect.cmp (s := s) ⟨a.toNat, ha⟩ ⟨b.toNat, hb⟩
      · cases (execCmp_bad_b s ha (Nat.not_lt.1 hb)).symm.trans h
        exact .bad (.cmp a b) b (by simp [registerOperands]) (Nat.not_lt.1 hb)
    · cases (execCmp_bad_a s (Nat.not_lt.1 ha)).symm.trans h
      exact .bad (.cmp a b) a (by simp [registerOperands]) (Nat.not_lt.1 ha)
  | jmp a =>
    by_cases ha : a.toNat < 8
    · cases (execJmp_ok s ha).symm.trans h
      simpa only [operandByte_of_lt] using Effect.jmp (s := s) ⟨a.toNat, ha⟩
    · cases (execJmp_bad s (Nat.not_lt.1 ha)).symm.trans h
      exact .bad (.jmp a) a (by simp [registerOperands]) (Nat.not_lt.1 ha)
  | jeq a =>
    by_cases ha : a.toNat < 8
    · cases (execJeq_ok s ha).symm.trans h
      simpa only [operandByte_of_lt] using Effect.jeq (s := s) ⟨a.toNat, ha⟩
    · cases (execJeq_bad s (Nat.not_lt.1 ha)).symm.trans h
      exact .bad (.jeq a) a (by simp [registerOperands]) (Nat.not_lt.1 ha)
  | jne a =>
    by_cases ha : a.toNat < 8
    · cases (execJne_ok s ha).symm.trans h
      simpa only [operandByte_of_lt] using Effect.jne (s := s) ⟨a.toNat, ha⟩
    · cases (execJne_bad s (Nat.not_lt.1 ha)).symm.trans h
      exact .bad (.jne a) a (by simp [registerOperands]) (Nat.not_lt.1 ha)

/-- Everything a step can do: it starts from a running state, and takes the fault of its fetch or runs the fetched instruction. -/
theorem step_cases {s t : State} (h : step s = .next t) :
    s.status = .running ∧
      ((∃ e, decodeFrom s.params.opcodes (byteAtPc s) = .error e ∧ t = raiseFault (decodeFault e s) s) ∨
        ∃ i, fetch s = .ok i ∧ exec i s = .next t) := by
  simp only [step] at h
  split at h
  · cases h
  · cases h
  · next hs =>
    refine ⟨hs, ?_⟩
    split at h
    · next f hf =>
      cases h
      simp only [fetch] at hf
      split at hf
      · cases hf
      · next e he => cases hf; exact .inl ⟨e, he, rfl⟩
    · next i hi => exact .inr ⟨i, hi, h⟩

/-- The bytes of a table word, stored where the next step fetches, are what it fetches: under the default opcode map and with the three
bytes inside the address space, the next step fetches exactly `decodeTableWord`'s instruction. -/
theorem fetch_withFetchWord {s : State} (hm : s.mem.wf) (ho : s.params.opcodes = defaultOpcodeMap) (hp : s.pc + 2 < 256)
    (nbits w : Nat) : (fetch (s.withFetchWord nbits w)).toOption = decodeTableWord nbits w := by
  obtain ⟨x, y, z, hxyz⟩ : ∃ x y z, tableBytes nbits w = [x, y, z] := ⟨_, _, _, rfl⟩
  have h0 : s.pc < 256 := by omega
  have h1 : s.pc + 1 < 256 := by omega
  have h2 : s.pc + 1 + 1 < 256 := by omega
  have hw : s.withFetchWord nbits w =
      setMem (((s.mem.set s.pc x).set (s.pc + 1) y).set (s.pc + 1 + 1) z) s := by
    simp [State.withFetchWord, hxyz, storeBytes, h0, h1, h2]
  have wf1 := Memory.set_wf hm h0 x
  have wf2 := Memory.set_wf wf1 h1 y
  have hb : ∀ k, k < 3 → byteAtPc (s.withFetchWord nbits w) k = [x, y, z][k]? := by
    intro k hk
    rw [hw, byteAtPc_of_lt (by simp only [setMem_pc]; omega)]
    simp only [setMem_pc, setMem_mem]
    interval_cases k
    · simp only [Nat.add_zero]
      rw [Memory.get_set_other _ _ (by omega), Memory.get_set_other _ _ (by omega), Memory.get_set_self hm]
      rfl
    · simp [Memory.get_set_other, Memory.get_set_self wf1]
    · simp [Memory.get_set_self wf2]
  have hd : decodeFrom defaultOpcodeMap (byteAtPc (s.withFetchWord nbits w)) =
      decodeFrom defaultOpcodeMap fun k => [x, y, z][k]? := by
    have b0 := hb 0 (by decide)
    have b1 := hb 1 (by decide)
    have b2 := hb 2 (by decide)
    simp only [decodeFrom, b0]
    split
    · rfl
    · split
      · rfl
      · next n _ => cases n <;> simp only [decodeOperands, readOperandA, readOperandsAB, b1, b2]
  have hpar : (s.withFetchWord nbits w).params.opcodes = defaultOpcodeMap := ho
  simp only [fetch, hpar, hd, decodeTableWord, decode, hxyz]
  split <;> simp_all [Except.toOption]

end Sys2Proof.Machine
end

