-- ==== Sys2Proof/Tests/Slice0.lean ====
section
/-!
SUPPORT. The model's own tests: the checks of well-formedness, every constructor's decoding, one or two steps per instruction, and, for every
obligation with hypotheses, a concrete state that meets them. Expected results come from 95_test_vectors.md (the vector is named) or
from the worked example of the instruction's rule.
-/

namespace Sys2Proof.Tests

open Sys2Proof.Machine

/-! ### Building small states -/

/-- The reset state with these bytes in memory at `pc`. -/
def load (pc : Nat) (bytes : List Byte) : State := { State.reset with pc := pc, mem := storeBytes [] pc bytes }

/-- The reset state in mode REFERENCE_OVERLAP. -/
def overlap : State := { State.reset with params := { defaultParams with cmpMode := .referenceOverlap } }

/-- The next state of a step, if there is one. -/
def next (o : Host.Outcome State Fault Refusal) : Option State :=
  match o with
  | .next t => some t
  | .fault _ => none
  | .refused _ => none

/-- A view of the next state of one step. -/
def after {α : Type} (s : State) (view : State → α) : Option α := (next (step s)).map view

/-! ### Well-formedness refuses each ill-formed term -/

theorem test_illFormed_ldi : Instr.wellFormed (.ldi 8 0) = false := by decide
theorem test_illFormed_prn : Instr.wellFormed (.prn 8) = false := by decide
theorem test_illFormed_mul_a : Instr.wellFormed (.mul 8 0) = false := by decide
theorem test_illFormed_mul_b : Instr.wellFormed (.mul 0 255) = false := by decide
theorem test_illFormed_push : Instr.wellFormed (.push 8) = false := by decide
theorem test_illFormed_pop : Instr.wellFormed (.pop 8) = false := by decide
theorem test_illFormed_cmp_a : Instr.wellFormed (.cmp 8 7) = false := by decide
theorem test_illFormed_cmp_b : Instr.wellFormed (.cmp 7 8) = false := by decide
theorem test_illFormed_jmp : Instr.wellFormed (.jmp 8) = false := by decide
theorem test_illFormed_jeq : Instr.wellFormed (.jeq 9) = false := by decide
theorem test_illFormed_jne : Instr.wellFormed (.jne 255) = false := by decide
/-- LDI's immediate is not checked (D-11). -/
theorem test_wellFormed_ldi : Instr.wellFormed (.ldi 7 255) = true := by decide
/-- A map that gives PUSH the byte of LDI (30_encoding.md R67). -/
theorem test_illFormed_map : ¬ OpcodeMap.WellFormed { defaultOpcodeMap with push := 0x82 } := by decide
theorem test_memory_unsorted : ¬ Memory.wf [(2, 1), (1, 1)] := by decide
theorem test_memory_lists_unlisted_byte : ¬ Memory.wf [(1, 0)] := by decide
theorem test_memory_outside : ¬ Memory.wf [(256, 1)] := by decide

/-! ### Decoding: words written out from 30_encoding.md R66 and R69 -/

theorem test_decode_hlt : decode defaultOpcodeMap [0b00000001, 0] = .ok (.hlt, [0]) := by decide
theorem test_decode_ldi : decode defaultOpcodeMap [0b10000010, 0b00000101, 0b11111111] = .ok (.ldi 5 255, []) := by decide
theorem test_decode_prn : decode defaultOpcodeMap [0b01000111, 0b00000111] = .ok (.prn 7, []) := by decide
theorem test_decode_mul : decode defaultOpcodeMap [0b10100010, 0b00000111, 0b00000001] = .ok (.mul 7 1, []) := by decide
theorem test_decode_push : decode defaultOpcodeMap [0b01000101, 0b00000000] = .ok (.push 0, []) := by decide
theorem test_decode_pop : decode defaultOpcodeMap [0b01000110, 0b00000001] = .ok (.pop 1, []) := by decide
theorem test_decode_cmp : decode defaultOpcodeMap [0b10100111, 0b00000000, 0b00000001] = .ok (.cmp 0 1, []) := by decide
theorem test_decode_jmp : decode defaultOpcodeMap [0b01010100, 0b00000010] = .ok (.jmp 2, []) := by decide
theorem test_decode_jeq : decode defaultOpcodeMap [0b01010101, 0b00000011] = .ok (.jeq 3, []) := by decide
theorem test_decode_jne : decode defaultOpcodeMap [0b01010110, 0b00000011] = .ok (.jne 3, []) := by decide
/-- A register operand is not masked (30_encoding.md R62). -/
theorem test_decode_unmasked : decode defaultOpcodeMap [0x47, 0x08] = .ok (.prn 8, []) := by decide
/-- 0xA0 is no opcode (30_encoding.md R68). -/
theorem test_decode_unknown : decode defaultOpcodeMap [0xA0, 0, 1] = .error (.unknownOpcode 0xA0) := by decide
theorem test_decode_short : decode defaultOpcodeMap [0x82, 0] = .error (.missingByte 2 (some 0x82)) := by decide
theorem test_decode_empty : decode defaultOpcodeMap [] = .error (.missingByte 0 none) := by decide
/-- A table word's first byte is its low 8 bits. -/
theorem test_decodeTableWord : decodeTableWord 24 0x0100A2 = some (.mul 0 1) ∧ decodeTableWord 8 0x0100A2 = some (.mul 0 0) := by
  decide
theorem test_withFetchWord : (after (State.reset.withFetchWord 24 0x080082) fun t => (reg 0 t, t.pc)) = some (8, 3) := by decide

/-! ### One step of each instruction -/

/-- L-1. -/
theorem test_ldi : (after (load 0 [0x82, 0x00, 0x08]) fun t => (reg 0 t, t.pc)) = some (8, 3) := by decide
/-- L-3. -/
theorem test_ldi_sp : (after (load 0 [0x82, 0x07, 0x10]) fun t => reg 7 t) = some 16 := by decide
/-- O-2. -/
theorem test_prn_sp : (after (load 0 [0x47, 0x07]) fun t => (t.output, t.pc)) = some ([244], 2) := by decide
/-- O-3, after an earlier output: the new byte comes last. -/
theorem test_prn_appends : (after { setReg 3 255 (load 0 [0x47, 0x03]) with output := [1] } fun t => t.output) = some [1, 255] := by
  decide
/-- M-4, and FL kept (M-10). -/
theorem test_mul_wraps : (after { setReg 0 255 (setReg 1 255 (load 0 [0xA2, 0, 1])) with fl := 4 } fun t => (reg 0 t, t.fl, t.pc)) =
    some (1, 4, 3) := by decide
/-- M-9. -/
theorem test_mul_sp : (after (setReg 1 2 (load 0 [0xA2, 7, 1])) fun t => (reg 7 t, reg 1 t)) = some (0xE8, 2) := by decide
/-- C-8: the comparison is unsigned. -/
theorem test_cmp_unsigned : (after (setReg 0 128 (setReg 1 127 (load 0 [0xA7, 0, 1]))) fun t => (t.fl, t.pc)) = some (0x02, 3) := by
  decide
/-- C-2 in mode REFERENCE_OVERLAP. -/
theorem test_cmp_overlap : (after { setReg 0 6 (setReg 1 5 (load 0 [0xA7, 0, 1])) with params := overlap.params } fun t => t.fl) =
    some 0x03 := by decide
/-- K-3: SP wraps. -/
theorem test_push_wraps : (after (setReg 7 0 (setReg 2 9 (load 0 [0x45, 2]))) fun t => (reg 7 t, t.mem.get 255, t.pc)) =
    some (0xFF, 9, 2) := by decide
/-- K-5: PUSH R7 stores the decremented SP. -/
theorem test_push_sp : (after (load 0 [0x45, 7]) fun t => (reg 7 t, t.mem.get 0xF3)) = some (0xF3, 0xF3) := by decide
/-- K-4: SP wraps. -/
theorem test_pop_wraps :
    (after { setReg 7 0xFF (load 0 [0x46, 2]) with mem := storeBytes (load 0 [0x46, 2]).mem 255 [9] } fun t => (reg 2 t, reg 7 t)) =
      some (9, 0) := by decide
/-- K-7: POP R7 leaves the popped value plus one. -/
theorem test_pop_sp :
    (after { setReg 7 0x10 (load 0 [0x46, 7]) with mem := storeBytes (load 0 [0x46, 7]).mem 0x10 [0x33] } fun t => (reg 7 t, t.pc)) =
      some (0x34, 2) := by decide
/-- J-1. -/
theorem test_jmp : (after (setReg 2 10 (load 4 [0x54, 2])) fun t => t.pc) = some 10 := by decide
/-- J-3 and J-4. -/
theorem test_jeq : (after { setReg 3 20 (load 12 [0x55, 3]) with fl := 1 } fun t => t.pc) = some 20 ∧
    (after { setReg 3 20 (load 12 [0x55, 3]) with fl := 2 } fun t => t.pc) = some 14 := by decide
/-- J-12: the pc passes the end, and the next step faults there. -/
theorem test_jeq_past_end : (after (load 254 [0x55, 0]) fun t => (t.pc, after t fun u => u.status)) =
    some (256, some (.faulted ⟨.outOfBounds, 256, none, .address 256⟩)) := by decide
/-- J-7 and J-10. -/
theorem test_jne : (after { setReg 3 20 (load 12 [0x56, 3]) with fl := 4 } fun t => t.pc) = some 20 ∧
    (after { setReg 3 20 (load 12 [0x56, 3]) with fl := 3 } fun t => t.pc) = some 14 := by decide
/-- D-6: a HLT at the last address runs; the pc keeps its address (H-1), and no step follows. -/
theorem test_hlt_at_255 : (after (load 255 [0x01]) fun t => (t.status, t.pc, (next (step t)).isNone)) =
    some (.halted, 255, true) := by decide

/-! ### Faults -/

/-- D-2. -/
theorem test_fault_unknown : (after (load 0 [0xA0]) fun t => (t.status, t.pc)) =
    some (.faulted ⟨.unknownOpcode, 0, some 0xA0, .none⟩, 0) := by decide
/-- D-9: operand a is checked first. -/
theorem test_fault_a_first : (after (load 0 [0xA2, 9, 8]) fun t => t.status) =
    some (.faulted ⟨.outOfBounds, 0, some 0xA2, .registerIndex 9⟩) := by decide
/-- D-12: the operand of a jump that is not taken is checked. -/
theorem test_fault_not_taken : (after (load 0 [0x55, 9]) fun t => t.status) =
    some (.faulted ⟨.outOfBounds, 0, some 0x55, .registerIndex 9⟩) := by decide
/-- D-13: the fetch fault comes before the register check. -/
theorem test_fault_fetch_first : (after (load 254 [0x82, 9]) fun t => t.status) =
    some (.faulted ⟨.outOfBounds, 254, some 0x82, .address 256⟩) := by decide
/-- D-5. -/
theorem test_fault_operand_a : (after (load 255 [0x47]) fun t => t.status) =
    some (.faulted ⟨.outOfBounds, 255, some 0x47, .address 256⟩) := by decide
/-- The codes of 60_exceptions.md R160. -/
theorem test_fault_codes : [FaultKind.outOfBounds, .unknownOpcode, .unsupportedOperation].map faultCode = [1, 2, 3] := by decide

/-! ### Each obligation's hypotheses can be met

One theorem per obligation with hypotheses, named after it; an obligation with several clauses has a witness for each, at the boundary of its
range. -/

/-- A PUSH R0 at 0 in a machine whose SP is at reset. -/
def pushState : State := load 0 [0x45, 0]

theorem witness_StepRunsDecodedInstruction : ∃ s i, s.status = .running ∧ Instr.wellFormed i = true ∧
    decodeFrom s.params.opcodes (byteAtPc s) = .ok i := ⟨load 253 [0x82, 7, 255], .ldi 7 255, by decide, by decide, by decide⟩
theorem witness_StepRunsEncodedInstruction : ∃ s i, s.status = .running ∧ s.params.opcodes.WellFormed ∧
    HoldsBytes s s.pc (encode s.params.opcodes i) := ⟨load 254 [0x47, 9], .prn 9, by decide, by decide, by decide⟩
theorem witness_DecodeInvertsEncode : ∃ m : OpcodeMap, m.WellFormed := ⟨defaultOpcodeMap, by decide⟩
theorem witness_EncodeInvertsDecode : ∃ m bytes rest i, decode m bytes = .ok (i, rest) :=
  ⟨defaultOpcodeMap, [0xA7, 8, 0, 1], [1], .cmp 8 0, by decide⟩
theorem witness_LengthFollowsOpcodeByte : ∃ m op xs ys xrest yrest i j,
    decode m (op :: xs) = .ok (i, xrest) ∧ decode m (op :: ys) = .ok (j, yrest) :=
  ⟨defaultOpcodeMap, 0x47, [1], [2, 3], [], [3], .prn 1, .prn 2, by decide, by decide⟩
theorem witness_UnmappedOpcodesRefused : (∀ n, opcodeOf defaultOpcodeMap n ≠ 0x00) ∧ opcodeOf defaultOpcodeMap .hlt = 0x01 :=
  ⟨fun n => by cases n <;> decide, by decide⟩
theorem witness_CompareExclusiveFlags : State.reset.params.cmpMode = .exclusive ∧
    (reg 7 State.reset).toNat > (reg 0 State.reset).toNat := by decide
theorem witness_CompareOverlapFlags : overlap.params.cmpMode = .referenceOverlap ∧
    (reg 7 overlap).toNat > (reg 0 overlap).toNat := by decide
theorem witness_CmpSetsExactlyOneFlag : ∃ s t, s.params.cmpMode = .exclusive ∧
    exec (.cmp (operandByte 7) (operandByte 0)) s = .next t := ⟨State.reset, _, by decide, rfl⟩
theorem witness_LdiLoadsImmediate_index : 7 < (8 : Byte).toNat := by decide
theorem witness_LdiLoadsImmediate_fetch : (load 254 [0x82]).status = .running ∧ (load 254 [0x82]).params.opcodes.WellFormed ∧
    byteAt (load 254 [0x82]) 254 = 0x82 ∧ byteAt (load 255 [0x82]) 255 = 0x82 := by decide
theorem witness_MulMultipliesRegisters_index : 7 < (8 : Byte).toNat ∧ 7 < (255 : Byte).toNat := by decide
theorem witness_MulMultipliesRegisters_fetch : (load 254 [0xA2]).status = .running ∧ (load 254 [0xA2]).params.opcodes.WellFormed ∧
    byteAt (load 254 [0xA2]) 254 = 0xA2 ∧ byteAt (load 255 [0xA2]) 255 = 0xA2 := by decide
theorem witness_PushStoresRegister : pushState.mem.wf := by decide
theorem witness_PopLoadsRegister : (0 : RegIndex) ≠ spIndex ∧ (7 : RegIndex) = spIndex := by decide
theorem witness_HltHalts : (load 255 [0x01]).status = .running ∧ (load 255 [0x01]).params.opcodes.WellFormed ∧
    (load 255 [0x01]).pc ≤ 255 ∧ byteAt (load 255 [0x01]) 255 = 0x01 ∧ ∃ t, step (load 255 [0x01]) = .next t :=
  ⟨by decide, by decide, by decide, by decide, _, rfl⟩
theorem witness_BranchAfterCompare : ∃ s t u w, exec (.cmp (operandByte 0) (operandByte 1)) s = .next t ∧
    exec (.jeq (operandByte 2)) t = .next u ∧ exec (.jne (operandByte 2)) t = .next w ∧
    reg 0 s = reg 1 s ∧ reg 0 s ≠ reg 7 s := ⟨State.reset, _, _, _, rfl, rfl, rfl, by decide, by decide⟩
theorem witness_OnlyPushWritesMemory : ∃ t, exec (.push 0) pushState = .next t := ⟨_, rfl⟩
theorem witness_OnlyDestinationsChange : ∃ t, exec (.pop 7) State.reset = .next t := ⟨_, rfl⟩
theorem witness_OnlyCmpWritesFlags : ∃ t, exec (.mul 0 1) State.reset = .next t ∧ ∀ a b, Instr.mul 0 1 ≠ .cmp a b :=
  ⟨_, rfl, by simp⟩
theorem witness_OnlyPrnWritesOutput : ∃ t u, exec (.ldi 0 1) State.reset = .next t ∧ (∀ a, Instr.ldi 0 1 ≠ .prn a) ∧
    step (load 0 [0x47, 0]) = .next u := ⟨_, _, rfl, by simp, rfl⟩
theorem witness_OnlyHltAndBadOperandsEndRun : ∃ t u, exec (.jmp 7) State.reset = .next t ∧ Instr.wellFormed (.jmp 7) = true ∧
    exec (.jmp 8) State.reset = .next u ∧ Instr.wellFormed (.jmp 8) = false := ⟨_, _, rfl, by decide, rfl, by decide⟩
theorem witness_ParametersNeverChange : ∃ t, step pushState = .next t := ⟨_, rfl⟩
theorem witness_OnlyEqualBitIsRead : ∃ t, (6 : Byte).getLsbD 0 = State.reset.fl.getLsbD 0 ∧
    exec (.jeq 0) State.reset = .next t ∧ ∃ u, exec (.cmp 0 1) State.reset = .next u := ⟨_, by decide, rfl, _, rfl⟩
theorem witness_OutputIsNeverRead : ∃ t, step (load 0 [0x47, 0]) = .next t := ⟨_, rfl⟩
theorem witness_BadRegisterFaults : firstBadOperand (.mul 7 8) = some 8 ∧ firstBadOperand (.jeq 255) = some 255 := by decide
theorem witness_OpcodeFetchPastEndFaults : (load 256 []).status = .running ∧ 256 ≤ (load 256 []).pc := by decide
theorem witness_UnknownOpcodeFaults : State.reset.status = .running ∧ State.reset.pc < 256 ∧
    ∀ n, opcodeOf State.reset.params.opcodes n ≠ byteAt State.reset State.reset.pc :=
  ⟨by decide, by decide, fun n => by cases n <;> decide⟩
theorem witness_OperandFetchPastEndFaults : (load 254 [0xA7]).status = .running ∧ (load 254 [0xA7]).params.opcodes.WellFormed ∧
    (load 254 [0xA7]).pc < 256 ∧ byteAt (load 254 [0xA7]) 254 = opcodeOf (load 254 [0xA7]).params.opcodes .cmp ∧
    256 < (load 254 [0xA7]).pc + width .cmp := by decide
theorem witness_FaultsArePrecise : ∃ t f, step (load 0 [0x47, 8]) = .next t ∧ t.status = .faulted f := ⟨_, _, rfl, rfl⟩
theorem witness_UnsupportedOperationUnreachable : ∃ t f, step State.reset = .next t ∧ t.status = .faulted f := ⟨_, _, rfl, rfl⟩
theorem witness_TerminalStatesTakeNoStep : (halt State.reset).status = .halted ∧
    (raiseFault ⟨.unknownOpcode, 0, some 0, .none⟩ State.reset).status = .faulted ⟨.unknownOpcode, 0, some 0, .none⟩ := by decide
theorem witness_RunningStatesAlwaysStep : State.reset.status = .running := by decide
theorem witness_HaltedOnlyByHlt : ∃ t, step (load 0 [0x01]) = .next t ∧ t.status = .halted := ⟨_, rfl, rfl⟩
theorem witness_StepKeepsLegal : ∃ t, Legal pushState ∧ step pushState = .next t :=
  ⟨_, ⟨by decide, by decide, by decide, by decide⟩, rfl⟩
theorem witness_LaunchedRunsStayLegal : Legal pushState ∧ overlap.params.opcodes.WellFormed :=
  ⟨⟨by decide, by decide, by decide, by decide⟩, by decide⟩
theorem witness_MemReadChecksAddress : memRead [(255, 7)] 255 = .ok 7 ∧ memRead [(255, 7)] 256 = .error (.address 256) := by decide
theorem witness_MemWriteChangesOneCell : Memory.wf [(0, 1), (255, 7)] := by decide
theorem witness_PushPopRoundTrip : ∃ s, s.status = .running ∧ s.mem.wf ∧ s.params.opcodes.WellFormed ∧
    HoldsBytes s s.pc (encode s.params.opcodes (.push (operandByte 7)) ++ encode s.params.opcodes (.pop (operandByte 7))) ∧
    pushAddress s ≠ s.pc + 2 ∧ pushAddress s ≠ s.pc + 3 :=
  ⟨load 252 [0x45, 7, 0x46, 7], by decide, by decide, by decide, by decide, by decide, by decide⟩
theorem witness_PushPopRoundTrip_distinct : HoldsBytes (load 0 [0x45, 0, 0x46, 1]) 0
    (encode defaultOpcodeMap (.push (operandByte 0)) ++ encode defaultOpcodeMap (.pop (operandByte 1))) := by decide
theorem witness_PushesDescend : pushState.mem.wf ∧ ∀ r ∈ [(0 : RegIndex), 6, 0], r ≠ spIndex := by decide
/-- The push lands on the opcode just after it: 0x01, in the place of a PRN (program P6). -/
def pushOnOpcode : State := setReg 7 9 (setReg 0 1 (load 6 [0x45, 0, 0x47, 0]))
/-- The push lands on the operand of the PRN after it. -/
def pushOnOperand : State := setReg 7 10 (setReg 0 1 (load 6 [0x45, 0, 0x47, 0]))
theorem witness_PushedByteIsFetchedNext_opcode : pushOnOpcode.status = .running ∧ pushOnOpcode.mem.wf ∧
    pushOnOpcode.params.opcodes.WellFormed ∧
    HoldsBytes pushOnOpcode pushOnOpcode.pc (encode pushOnOpcode.params.opcodes (.push (operandByte 0))) ∧
    pushAddress pushOnOpcode = pushOnOpcode.pc + 2 ∧ reg 0 pushOnOpcode = 0x01 := by decide
theorem witness_PushedByteIsFetchedNext_operand : pushOnOperand.status = .running ∧ pushOnOperand.mem.wf ∧
    pushOnOperand.params.opcodes.WellFormed ∧
    HoldsBytes pushOnOperand pushOnOperand.pc (encode pushOnOperand.params.opcodes (.push (operandByte 0))) ∧
    pushAddress pushOnOperand = pushOnOperand.pc + 3 := by decide
/-- PUSH R7 in the last two cells: the next fetch is past the end and takes its fault. -/
theorem witness_PushedByteIsFetchedNext_end : (load 254 [0x45, 7]).status = .running ∧ (load 254 [0x45, 7]).mem.wf ∧
    HoldsBytes (load 254 [0x45, 7]) 254 (encode defaultOpcodeMap (.push (operandByte 7))) := by decide
theorem witness_JumpToSelfNeverEnds : ∃ s, s.status = .running ∧ s.params.opcodes.WellFormed ∧
    HoldsBytes s s.pc (encode s.params.opcodes (.jmp (operandByte 0))) ∧ (reg 0 s).toNat = s.pc :=
  ⟨setReg 0 3 (load 3 [0x54, 0]), by decide, by decide, by decide, by decide⟩
theorem witness_LoadPlacesProgram : State.reset.mem.wf ∧ (List.replicate 256 (1 : Byte)).length ≤ 256 :=
  ⟨by decide, by rw [List.length_replicate]⟩
theorem witness_LoadRefusesByte257 : State.reset.mem.wf ∧ 256 < (List.replicate 257 (1 : Byte)).length :=
  ⟨by decide, by rw [List.length_replicate]; decide⟩

end Sys2Proof.Tests
end

section
/-!
SUPPORT. The memory access primitives of 20_memory.md R41 and R42, one rule per outcome, and the record made of a refused access.
-/

namespace Sys2Proof.Machine

/-- `MemWrite` with address and value in range sets the one cell. -/
theorem memWrite_of_lt {m : Memory} {a v : Nat} (ha : a < 256) (hv : v < 256) :
    memWrite m a v = .ok (m.set a (BitVec.ofNat 8 v)) := by
  rw [memWrite, if_pos ha, if_pos hv]

/-- `MemWrite` refuses an address out of range, whatever the value: the address is checked first. -/
theorem memWrite_of_address_ge {m : Memory} {a v : Nat} (ha : 256 ≤ a) :
    memWrite m a v = .error (.address a) :=
  if_neg (Nat.not_lt.2 ha)

/-- `MemWrite` with the address in range refuses a value out of range. -/
theorem memWrite_of_value_ge {m : Memory} {a v : Nat} (ha : a < 256) (hv : 256 ≤ v) :
    memWrite m a v = .error (.value v) := by
  rw [memWrite, if_pos ha, if_neg (Nat.not_lt.2 hv)]

@[simp] theorem memoryFault_kind (n : Mnemonic) (d : FaultDetail) (s : State) :
    (memoryFault n d s).kind = .outOfBounds := rfl

@[simp] theorem memoryFault_detail (n : Mnemonic) (d : FaultDetail) (s : State) :
    (memoryFault n d s).detail = d := rfl

/-- The cell that a write of `v` in range set reads as `v`: the conversion to a byte loses nothing. -/
theorem Memory.toNat_get_set_self {m : Memory} (hm : m.wf) (a : Nat) {v : Nat} (hv : v < 256) :
    ((m.set a (BitVec.ofNat 8 v)).get a).toNat = v := by
  rw [Memory.get_set_self hm, BitVec.toNat_ofNat, Nat.mod_eq_of_lt hv]

/-- Settles O47: the write that succeeds is one `Memory.set`, whose two laws say what each cell reads as. -/
theorem memWriteChangesOneCell : Obligations.MemWriteChangesOneCell := by
  unfold Obligations.MemWriteChangesOneCell
  intro m addr v hm
  refine ⟨fun ha hv => ?inRange, fun ha => memWrite_of_address_ge ha,
    fun ha hv => memWrite_of_value_ge (Nat.lt_succ_of_le ha) hv,
    fun n d s => ⟨memoryFault_kind n d s, memoryFault_detail n d s⟩⟩
  case inRange =>
    have ha' : addr < 256 := Nat.lt_succ_of_le ha
    have hv' : v < 256 := Nat.lt_succ_of_le hv
    exact ⟨m.set addr (BitVec.ofNat 8 v), memWrite_of_lt ha' hv', Memory.toNat_get_set_self hm addr hv',
      fun _ hne => Memory.get_set_other m _ hne⟩

/-- Settles O46, by the rule of `memRead` on each side of the bound. -/
theorem memReadChecksAddress : Obligations.MemReadChecksAddress := by
  unfold Obligations.MemReadChecksAddress
  intro m addr
  refine ⟨fun ha => memRead_of_lt (Nat.lt_succ_of_le ha), fun ha => ⟨memRead_of_ge ha, fun n s => ?_⟩⟩
  exact ⟨memoryFault_kind n _ s, memoryFault_detail n _ s⟩

end Sys2Proof.Machine
end

section
/-!
SUPPORT. What a decoder that gives an instruction has read: the opcode byte looked up, the encoding as a prefix, and the bytes used up.
-/

namespace Sys2Proof

/-- What decodes from a source of bytes: the byte at offset 0 is looked up as the instruction's mnemonic, and the operand bytes follow. -/
theorem decodeFrom_ok {m : OpcodeMap} {byteAt : Nat → Option Byte} {i : Instr} (h : decodeFrom m byteAt = .ok i) :
    ∃ op, byteAt 0 = some op ∧ decodeOpcode m op = some (mnemonicOf i) ∧
      ∀ k b, (operandBytes i)[k]? = some b → byteAt (k + 1) = some b := by
  unfold decodeFrom at h
  split at h
  case h_1 => cases h
  case h_2 op hop =>
    split at h
    case h_1 => cases h
    case h_2 n hn =>
      obtain ⟨rfl, hbytes⟩ := decodeOperands_ok h
      exact ⟨op, hop, hn, hbytes⟩

/-- `decode` is `decodeFrom` on the list, with the instruction's width dropped. -/
theorem decode_eq_ok_iff {m : OpcodeMap} {bytes rest : List Byte} {i : Instr} :
    decode m bytes = .ok (i, rest) ↔
      decodeFrom m (fun k => bytes[k]?) = .ok i ∧ bytes.drop (width (mnemonicOf i)) = rest := by
  unfold decode
  cases decodeFrom m (fun k => bytes[k]?) with
  | error e => simp
  | ok j =>
    simp only [Except.ok.injEq, Prod.mk.injEq]
    exact and_congr_right fun hji => by rw [hji]

/-- The mnemonic of a decoded instruction is the one its first byte is looked up as. -/
theorem decodeOpcode_of_decode {m : OpcodeMap} {op : Byte} {xs rest : List Byte} {i : Instr}
    (h : decode m (op :: xs) = .ok (i, rest)) : decodeOpcode m op = some (mnemonicOf i) := by
  obtain ⟨op', hop, hlookup, -⟩ := decodeFrom_ok (decode_eq_ok_iff.1 h).1
  cases hop
  exact hlookup

/-- The bytes that decode to an instruction begin with its encoding. -/
theorem encode_prefix_of_decode {m : OpcodeMap} {bytes rest : List Byte} {i : Instr}
    (h : decode m bytes = .ok (i, rest)) : encode m i <+: bytes := by
  obtain ⟨op, hop, hlookup, hoperands⟩ := decodeFrom_ok (decode_eq_ok_iff.1 h).1
  refine List.prefix_iff_getElem?.2 fun k hk => ?_
  cases k with
  | zero => rw [hop, ← opcodeOf_of_decodeOpcode hlookup]; rfl
  | succ k => exact hoperands k _ (List.getElem?_eq_getElem (Nat.lt_of_succ_lt_succ hk))

/-- Decoding uses up as many bytes as the mnemonic is wide. -/
theorem length_of_decode {m : OpcodeMap} {bytes rest : List Byte} {i : Instr}
    (h : decode m bytes = .ok (i, rest)) : bytes.length = width (mnemonicOf i) + rest.length := by
  have hle : width (mnemonicOf i) ≤ bytes.length := by
    rw [← length_operandBytes]
    exact (encode_prefix_of_decode h).length_le
  rw [← (decode_eq_ok_iff.1 h).2, List.length_drop, Nat.add_sub_cancel' hle]

/-- Settles O5: both strings' mnemonics are what the one opcode byte is looked up as, and each uses up the width of its mnemonic. -/
theorem lengthFollowsOpcodeByte : Obligations.LengthFollowsOpcodeByte := by
  unfold Obligations.LengthFollowsOpcodeByte
  refine ⟨fun m op xs ys xrest yrest i j hi hj => ?_, by decide⟩
  have hmn : mnemonicOf i = mnemonicOf j :=
    Option.some.inj ((decodeOpcode_of_decode hi).symm.trans (decodeOpcode_of_decode hj))
  exact ⟨hmn, length_of_decode hi, hmn ▸ length_of_decode hj⟩

end Sys2Proof
end

section
/-!
SUPPORT. The frame of an update, said once per update: the registers it leaves alone, and memory where it does not touch it.
-/

namespace Sys2Proof.Machine

variable (s : State)

/-- Writing a register leaves the others alone. -/
theorem sameRegsBut_setReg (d : RegIndex) (v : Byte) : SameRegsBut [d] s (setReg d v s) :=
  fun _ hk => reg_setReg_other d v s (List.ne_of_not_mem_cons hk)

/-- Writing FL leaves every register alone. -/
theorem sameRegsBut_setFl (v : Byte) : SameRegsBut [] s (setFl v s) := fun k _ => reg_setFl k v s

/-- Advancing the pc afterwards changes no further register. -/
theorem SameRegsBut.advance {ds : List RegIndex} {s t : State} (h : SameRegsBut ds s t) (n : Mnemonic) :
    SameRegsBut ds s (advance n t) := h

/-- States with the same memory hold the same bytes. -/
theorem sameMem_of_mem_eq {s t : State} (h : t.mem = s.mem) : SameMem s t :=
  fun a => congrArg (Memory.get · a) h

/-- Advancing the pc afterwards changes no byte of memory. -/
theorem SameMem.advance {s t : State} (h : SameMem s t) (n : Mnemonic) : SameMem s (advance n t) := h

end Sys2Proof.Machine
end

section
/-!
SUPPORT. The fetch of an instruction that runs past the end of memory (40_dispatch.md R83): address 256 is the first byte missing,
whatever the instruction's format, and the step takes the fault of that fetch.
-/

namespace Sys2Proof

theorem readOperandA_missing {op : Byte} {byteAt : Nat → Option Byte} {build : Byte → Instr} (h : byteAt 1 = none) :
    readOperandA op byteAt build = .error (.missingByte 1 (some op)) := by
  simp only [readOperandA, h]

theorem readOperandsAB_missing_a {op : Byte} {byteAt : Nat → Option Byte} {build : Byte → Byte → Instr}
    (h : byteAt 1 = none) : readOperandsAB op byteAt build = .error (.missingByte 1 (some op)) := by
  simp only [readOperandsAB, h]

theorem readOperandsAB_missing_b {op a : Byte} {byteAt : Nat → Option Byte} {build : Byte → Byte → Instr}
    (ha : byteAt 1 = some a) (hb : byteAt 2 = none) :
    readOperandsAB op byteAt build = .error (.missingByte 2 (some op)) := by
  simp only [readOperandsAB, ha, hb]

namespace Machine

variable {s : State}

/-- One operand byte: it is past the end when the opcode is the last byte of memory. -/
theorem readOperandA_pastEnd (op : Byte) (build : Byte → Instr) (hlt : s.pc < 256) (hend : 256 < s.pc + 2) :
    readOperandA op (byteAtPc s) build = .error (.missingByte (256 - s.pc) (some op)) := by
  have hpc : s.pc = 255 := by omega
  rw [hpc]
  exact readOperandA_missing (byteAtPc_of_ge (by omega))

/-- Two operand bytes: the opcode in the last cell misses the first, in the cell before it the second. -/
theorem readOperandsAB_pastEnd (op : Byte) (build : Byte → Byte → Instr) (hlt : s.pc < 256) (hend : 256 < s.pc + 3) :
    readOperandsAB op (byteAtPc s) build = .error (.missingByte (256 - s.pc) (some op)) := by
  obtain hpc | hpc : s.pc = 254 ∨ s.pc = 255 := by omega
  · rw [hpc]
    exact readOperandsAB_missing_b (byteAtPc_of_lt (by omega)) (byteAtPc_of_ge (by omega))
  · rw [hpc]
    exact readOperandsAB_missing_a (byteAtPc_of_ge (by omega))

/-- An instruction that runs past the end of memory misses the byte at address 256. -/
theorem decodeOperands_pastEnd (op : Byte) {n : Mnemonic} (hlt : s.pc < 256) (hend : 256 < s.pc + width n) :
    decodeOperands op (byteAtPc s) n = .error (.missingByte (256 - s.pc) (some op)) := by
  cases n with
  | hlt => exact absurd hlt (Nat.not_lt.2 (Nat.le_of_lt_succ hend))
  | ldi | mul | cmp => exact readOperandsAB_pastEnd op _ hlt hend
  | prn | push | pop | jmp | jeq | jne => exact readOperandA_pastEnd op _ hlt hend

/-- With a mnemonic's opcode byte at the pc, decoding is the reading of its operands. -/
theorem decodeFrom_byteAtPc {n : Mnemonic} (hm : s.params.opcodes.WellFormed) (hlt : s.pc < 256)
    (hop : byteAt s s.pc = opcodeOf s.params.opcodes n) :
    decodeFrom s.params.opcodes (byteAtPc s) = decodeOperands (opcodeOf s.params.opcodes n) (byteAtPc s) n := by
  have h0 : byteAtPc s 0 = some (opcodeOf s.params.opcodes n) := hop ▸ byteAtPc_of_lt hlt
  simp only [decodeFrom, h0, decodeOpcode_opcodeOf hm]

/-- A step whose bytes do not decode takes the fault of its fetch. -/
theorem step_of_decode_error {e : DecodeError} (hs : s.status = .running)
    (h : decodeFrom s.params.opcodes (byteAtPc s) = .error e) : step s = .next (raiseFault (decodeFault e s) s) := by
  have hf : fetch s = .error (decodeFault e s) := by simp only [fetch, h]
  simp only [step_running hs, hf]

/-- A step on an instruction that runs past the end of memory takes the fault of fetching address 256. -/
theorem step_pastEnd {n : Mnemonic} (hs : s.status = .running) (hm : s.params.opcodes.WellFormed) (hlt : s.pc < 256)
    (hop : byteAt s s.pc = opcodeOf s.params.opcodes n) (hend : 256 < s.pc + width n) :
    step s = .next (raiseFault (fetchFault (some (opcodeOf s.params.opcodes n)) 256 s) s) := by
  have hdec := (decodeFrom_byteAtPc hm hlt hop).trans (decodeOperands_pastEnd _ hlt hend)
  rw [step_of_decode_error hs hdec, decodeFault, Nat.add_sub_cancel' hlt.le]

end Machine

end Sys2Proof
end

section
/-!
SUPPORT. The ALU's MUL and CMP (41_alu.md R102, R103), and the instruction MUL (R105) made of the first.
-/

namespace Sys2Proof.Machine

/-- The byte that MUL writes is the exact product modulo 256. -/
theorem toNat_aluMul (u v : Byte) : (aluMul u v).toNat = u.toNat * v.toNat % 256 := BitVec.toNat_ofNat ..

/-- In mode EXCLUSIVE the new FL is G, L or E alone, by the unsigned values. -/
theorem compareFlags_exclusive (u v : Byte) :
    compareFlags .exclusive u v =
      if u.toNat > v.toNat then 0b00000010 else if u.toNat < v.toNat then 0b00000100 else 0b00000001 := rfl

/-- Settles O9: the ALU's one write is of `x[d]`. -/
theorem aluMulWraps : Obligations.AluMulWraps := by
  unfold Obligations.AluMulWraps
  intro s d src
  refine ⟨setReg d (aluMul (reg d s) (reg src s)) s, rfl, ?product, sameRegsBut_setReg s d _,
    rfl, rfl, rfl, rfl, sameMem_of_mem_eq rfl, rfl⟩
  case product => rw [reg_setReg_self, toNat_aluMul]

/-- Settles O11: the ALU's one write is of FL, and its value is the comparison in the machine's mode. -/
theorem compareExclusiveFlags : Obligations.CompareExclusiveFlags := by
  unfold Obligations.CompareExclusiveFlags
  intro s d src hmode
  refine ⟨setFl (compareFlags s.params.cmpMode (reg d s) (reg src s)) s, rfl, ?flags, sameRegsBut_setFl s _,
    rfl, rfl, rfl, sameMem_of_mem_eq rfl, rfl⟩
  case flags => rw [setFl_fl, hmode, compareFlags_exclusive]

/-- MUL on registers is the ALU's MUL, then the advance. -/
theorem exec_mul_of_aluApply {s u : State} {d src : RegIndex} (h : aluApply .mul d src s = .ok u) :
    exec (.mul (operandByte d) (operandByte src)) s = .next (advance .mul u) := by
  simp only [exec, execMul, checkReg_operandByte]
  exact congrArg (fun r => commit s (r >>= fun t => .ok (advance .mul t))) h

/-- MUL with a register byte above 7 takes the fault of a bad operand. -/
theorem exec_mul_badRegister (s : State) {a b : Byte} (h : 7 < a.toNat ∨ 7 < b.toNat) :
    ∃ v, exec (.mul a b) s = .next (raiseFault (registerFault .mul v s) s) := by
  obtain ha | ha := Nat.lt_or_ge 7 a.toNat
  · exact ⟨a, execMul_bad_a s ha⟩
  · exact ⟨b, execMul_bad_b s (Nat.lt_succ_of_le ha) (h.resolve_left ha.not_gt)⟩

/-- Settles O16: on registers by the ALU's MUL (O9), and by the fault of a bad operand or of a fetch past the end of memory. -/
theorem mulMultipliesRegisters : Obligations.MulMultipliesRegisters := by
  unfold Obligations.MulMultipliesRegisters
  refine ⟨fun _ _ _ => rfl, fun s d src => ?product, fun s a b hbad => ?badRegister, fun s hs hm hpc hop => ?pastEnd⟩
  case product =>
    obtain ⟨u, hu, hproduct, hregs, hfl, hupc, hstatus, houtput, hmem, hparams⟩ := aluMulWraps s d src
    exact ⟨advance .mul u, exec_mul_of_aluApply hu, hproduct, hregs.advance .mul, congrArg (· + 3) hupc,
      hfl, hstatus, houtput, hmem.advance .mul, hparams⟩
  case badRegister =>
    obtain ⟨v, hv⟩ := exec_mul_badRegister s hbad
    exact ⟨_, .registerIndex v, hv, rfl⟩
  case pastEnd =>
    have hlt : s.pc < 256 := by omega
    have hend : 256 < s.pc + 3 := by omega
    exact ⟨_, .address 256, step_pastEnd (n := .mul) hs hm hlt hop hend, rfl⟩

end Sys2Proof.Machine
end

section
/-!
SUPPORT. LDI (42_load_output.md R121): the one register it writes, and the faults of its register byte and of its fetch.
-/

namespace Sys2Proof.Machine

/-- LDI on a register sets it to the immediate, then advances. -/
theorem exec_ldi_operandByte (s : State) (d : RegIndex) (imm : Byte) :
    exec (.ldi (operandByte d) imm) s = .next (advance .ldi (setReg d imm s)) := by
  simp only [exec, execLdi, checkReg_operandByte]
  rfl

/-- Settles O14: on a register by its one write and the frame of that write, else by the fault of a bad operand or of a fetch past the
end of memory. -/
theorem ldiLoadsImmediate : Obligations.LdiLoadsImmediate := by
  unfold Obligations.LdiLoadsImmediate
  refine ⟨fun _ _ _ => rfl, fun s r imm => ?load, fun s a imm hbad => ?badRegister, fun s hs hm hpc hop => ?pastEnd⟩
  case load =>
    have hreg : reg r (advance .ldi (setReg r imm s)) = imm := by rw [reg_advance, reg_setReg_self]
    have hregs : SameRegsBut [r] s (advance .ldi (setReg r imm s)) := (sameRegsBut_setReg s r imm).advance .ldi
    exact ⟨_, exec_ldi_operandByte s r imm, hreg, hregs, rfl, rfl, rfl, rfl, sameMem_of_mem_eq rfl, rfl⟩
  case badRegister => exact ⟨_, .registerIndex a, execLdi_bad imm s hbad, rfl⟩
  case pastEnd =>
    have hlt : s.pc < 256 := by omega
    have hend : 256 < s.pc + 3 := by omega
    exact ⟨_, .address 256, step_pastEnd (n := .ldi) hs hm hlt hop hend, rfl⟩

end Sys2Proof.Machine
end

section
/-!
SUPPORT. HLT (44_control.md R143): the step that runs it wherever its byte stands, and the halted state it leaves, from which no step is
taken.
-/

namespace Sys2Proof.Machine

variable {s : State}

/-- A step whose bytes decode runs the instruction they decode to. -/
theorem step_of_decode_ok {i : Instr} (hs : s.status = .running)
    (h : decodeFrom s.params.opcodes (byteAtPc s) = .ok i) : step s = exec i s := by
  have hf : fetch s = .ok i := by simp only [fetch, h]
  simp only [step_running hs, hf]

/-- HLT has no operands, so its opcode byte at the pc is all that a step reads, in the last cell of memory too. -/
theorem step_of_hlt_byte (hs : s.status = .running) (hm : s.params.opcodes.WellFormed) (hlt : s.pc < 256)
    (hop : byteAt s s.pc = opcodeHlt) : step s = exec .hlt s :=
  step_of_decode_ok hs (decodeFrom_byteAtPc (n := .hlt) hm hlt hop)

/-- No step is taken from `Halted` (40_dispatch.md R80). -/
theorem step_ne_next_of_halted (hs : s.status = .halted) (u : State) : step s ≠ .next u := by
  intro hstep
  obtain ⟨hrunning, -⟩ := step_cases hstep
  cases hs.symm.trans hrunning

/-- Settles O23: HLT is the one write of the status, which every step that finds its byte makes, and the status it leaves ends the run. -/
theorem hltHalts : Obligations.HltHalts := by
  unfold Obligations.HltHalts
  refine ⟨fun _ => rfl, fun s => ?effect, fun s hs hm hpc hop => ?runs⟩
  case effect =>
    exact ⟨halt s, execHlt_eq s, halt_status s, halt_pc s, fun k _ => reg_halt k s, halt_fl s, halt_output s,
      sameMem_of_mem_eq (halt_mem s), halt_params s⟩
  case runs =>
    have hstep : step s = exec .hlt s := step_of_hlt_byte hs hm (Nat.lt_succ_of_le hpc) hop
    refine ⟨hstep, fun t u ht => ?_⟩
    have hhalt : exec .hlt s = .next t := hstep.symm.trans ht
    cases hhalt
    exact step_ne_next_of_halted (halt_status s) u

end Sys2Proof.Machine
end

section
/-!
SUPPORT. The fetch of a byte that is no opcode (60_exceptions.md R161): decoding ends at that byte, before any operand is read, and the
step takes the fault of that fetch.
-/

namespace Sys2Proof

/-- A first byte that is in no row of the opcode map is refused as unknown, whatever bytes follow it. -/
theorem decodeFrom_of_unmapped {m : OpcodeMap} {byteAt : Nat → Option Byte} {op : Byte} (h0 : byteAt 0 = some op)
    (hop : ∀ n, opcodeOf m n ≠ op) : decodeFrom m byteAt = .error (.unknownOpcode op) := by
  have hlookup : decodeOpcode m op = none := decodeOpcode_eq_none.2 hop
  simp only [decodeFrom, h0, hlookup]

namespace Machine

/-- A step that finds an unmapped byte at the pc takes the UnknownOpcode fault of that byte. -/
theorem step_of_unmapped {s : State} (hs : s.status = .running) (hlt : s.pc < 256)
    (hop : ∀ n, opcodeOf s.params.opcodes n ≠ byteAt s s.pc) :
    step s = .next (raiseFault (unknownOpcodeFault (byteAt s s.pc) s) s) := by
  have h0 : byteAtPc s 0 = some (byteAt s s.pc) := byteAtPc_of_lt hlt
  exact step_of_decode_error hs (decodeFrom_of_unmapped h0 hop)

/-- Settles O35: the opcode byte is fetched, no mnemonic is looked up by it, and the fault taken becomes the status. -/
theorem unknownOpcodeFaults : Obligations.UnknownOpcodeFaults := by
  unfold Obligations.UnknownOpcodeFaults
  intro s hs hlt hop
  exact ⟨_, step_of_unmapped hs hlt hop, raiseFault_status ..⟩

end Machine

end Sys2Proof
end

section
/-!
SUPPORT. The encoder and the decoder undo each other (30_encoding.md R60, R66 to R68), and what the decoder refuses.
-/

namespace Sys2Proof

theorem length_encode (m : OpcodeMap) (i : Instr) : (encode m i).length = width (mnemonicOf i) :=
  length_operandBytes i

/-- A source of bytes that begins with an encoding decodes to the instruction encoded. -/
theorem decodeFrom_of_encode {m : OpcodeMap} (hm : m.WellFormed) {byteAt : Nat → Option Byte} {i : Instr}
    (h : ∀ k b, (encode m i)[k]? = some b → byteAt k = some b) : decodeFrom m byteAt = .ok i := by
  have hop : byteAt 0 = some (opcodeOf m (mnemonicOf i)) := h 0 _ rfl
  simp only [decodeFrom, hop, decodeOpcode_opcodeOf hm]
  exact decodeOperands_of_bytes _ i fun k b hb => h (k + 1) b hb

/-- Settles O3: the list begins with the encoding, whose length is the width that decoding drops. -/
theorem decodeInvertsEncode : Obligations.DecodeInvertsEncode := by
  unfold Obligations.DecodeInvertsEncode
  intro m i rest hm
  have hdec : decodeFrom m (fun k => (encode m i ++ rest)[k]?) = .ok i :=
    decodeFrom_of_encode hm fun k b hb => by
      obtain ⟨hk, -⟩ := List.getElem?_eq_some_iff.1 hb
      rw [List.getElem?_append_left hk, hb]
  exact decode_eq_ok_iff.2 ⟨hdec, List.drop_left' (length_encode m i)⟩

/-- Settles O4: the bytes begin with the encoding, and the rest is what follows it. -/
theorem encodeInvertsDecode : Obligations.EncodeInvertsDecode := by
  unfold Obligations.EncodeInvertsDecode
  intro m bytes rest i h
  obtain ⟨tail, rfl⟩ := encode_prefix_of_decode h
  obtain ⟨-, hdrop⟩ := decode_eq_ok_iff.1 h
  rw [← hdrop, List.drop_left' (length_encode m i)]

/-- `decode` refuses a list exactly as `decodeFrom` refuses its bytes. -/
theorem decode_eq_error_iff {m : OpcodeMap} {bytes : List Byte} {e : DecodeError} :
    decode m bytes = .error e ↔ decodeFrom m (fun k => bytes[k]?) = .error e := by
  unfold decode
  cases decodeFrom m (fun k => bytes[k]?) <;> simp

/-- Reading operands fails on a missing byte only. -/
theorem decodeOperands_ne_unknownOpcode (op op' : Byte) (byteAt : Nat → Option Byte) (n : Mnemonic) :
    decodeOperands op byteAt n ≠ .error (.unknownOpcode op') := by
  cases n with
  | hlt => simp [decodeOperands]
  | ldi | mul | cmp =>
    simp only [decodeOperands, readOperandsAB]
    repeat' split
    all_goals simp
  | prn | push | pop | jmp | jeq | jne =>
    simp only [decodeOperands, readOperandA]
    split <;> simp

/-- Settles O6: a byte that some mnemonic has is looked up, and after that only operands can be missing. -/
theorem unmappedOpcodesRefused : Obligations.UnmappedOpcodesRefused := by
  unfold Obligations.UnmappedOpcodesRefused
  intro m op rest
  rw [decode_eq_error_iff]
  refine ⟨fun h => decodeOpcode_eq_none.1 ?lookup, decodeFrom_of_unmapped rfl⟩
  case lookup =>
    cases hn : decodeOpcode m op with
    | none => rfl
    | some n =>
      simp only [decodeFrom, List.getElem?_cons_zero, hn] at h
      exact (decodeOperands_ne_unknownOpcode _ _ _ _ h).elim

/-- Settles O7: ten closed words, each read by the decoder. -/
theorem writtenWordsDecode : Obligations.WrittenWordsDecode := by
  unfold Obligations.WrittenWordsDecode
  decide

/-- The values of the ten opcode bytes. -/
def opcodeValues (m : OpcodeMap) : List Nat := allMnemonics.map fun n => (opcodeOf m n).toNat

theorem mem_opcodeValues {m : OpcodeMap} {b : Nat} : b ∈ opcodeValues m ↔ ∃ n, (opcodeOf m n).toNat = b := by
  simp only [opcodeValues, List.mem_map, mem_allMnemonics, true_and]

theorem nodup_opcodeValues {m : OpcodeMap} (hm : m.WellFormed) : (opcodeValues m).Nodup := by
  have := hm.map (f := BitVec.toNat) fun _ _ => BitVec.eq_of_toNat_eq
  rwa [List.map_map] at this

/-- A byte is illegal exactly when its value is none of the ten opcodes'. -/
theorem decodeOpcode_ofNat_eq_none {m : OpcodeMap} {b : Nat} (hb : b < 256) :
    decodeOpcode m (BitVec.ofNat 8 b) = none ↔ b ∉ opcodeValues m := by
  have hval : (BitVec.ofNat 8 b).toNat = b := by rw [BitVec.toNat_ofNat, Nat.mod_eq_of_lt hb]
  simp only [decodeOpcode_eq_none, mem_opcodeValues, not_exists, ne_eq, ← BitVec.toNat_inj, hval]

/-- Ten distinct opcodes leave 246 of the 256 byte values illegal (30_encoding.md R67, R68). -/
theorem length_illegalBytes {m : OpcodeMap} (hm : m.WellFormed) :
    ((List.range 256).filter fun b => decodeOpcode m (BitVec.ofNat 8 b) = none).length = 246 := by
  have hsub : (opcodeValues m).toFinset ⊆ Finset.range 256 := by
    intro b hb
    obtain ⟨n, rfl⟩ := mem_opcodeValues.1 (List.mem_toFinset.1 hb)
    exact Finset.mem_range.2 (opcodeOf m n).isLt
  have hcard : (opcodeValues m).toFinset.card = 10 := List.toFinset_card_of_nodup (nodup_opcodeValues hm)
  have hillegal : (Finset.range 256).filter (fun b => decodeOpcode m (BitVec.ofNat 8 b) = none) =
      Finset.range 256 \ (opcodeValues m).toFinset := by
    ext b
    simp only [Finset.mem_filter, Finset.mem_sdiff, List.mem_toFinset]
    exact and_congr_right fun hb => decodeOpcode_ofNat_eq_none (Finset.mem_range.1 hb)
  calc _ = ((Finset.range 256).filter fun b => decodeOpcode m (BitVec.ofNat 8 b) = none).card := rfl
    _ = 246 := by rw [hillegal, Finset.card_sdiff_of_subset hsub, hcard, Finset.card_range]

/-- Settles O8: the default map is distinct, so that the count is the one of every distinct map. -/
theorem defaultOpcodesDistinct : Obligations.DefaultOpcodesDistinct := by
  unfold Obligations.DefaultOpcodesDistinct
  have hm : defaultOpcodeMap.WellFormed := by decide
  exact ⟨hm, length_illegalBytes hm, by decide, by decide⟩

end Sys2Proof
end

section
/-!
SUPPORT. Field by field, what an instruction can do (one inversion lemma per field of the state), and the frames over the whole
instruction set that follow.
-/

namespace Sys2Proof.Machine

/-! ### Operand bytes that name registers -/

@[simp] theorem namesRegister_operandByte (r : RegIndex) : namesRegister (operandByte r) = true := by
  simp [namesRegister]

@[simp] theorem namedRegister_operandByte (r : RegIndex) : namedRegister (operandByte r) = [r] := by
  simp [namedRegister]

/-- No operand of a well-formed instruction is out of range. -/
theorem toNat_lt_of_wellFormed {i : Instr} (hw : i.wellFormed = true) {v : Byte} (hv : v ∈ registerOperands i) : v.toNat < 8 := by
  have := List.all_eq_true.1 hw v hv
  simpa [namesRegister] using this

/-! ### One inversion lemma per field -/

section
variable {s t : State} {i : Instr}

/-- Every instruction answers a next state. -/
theorem exec_next (i : Instr) (s : State) : ∃ t, exec i s = .next t := by
  cases i <;> simp only [exec] <;> exact commit_next s _

/-- No instruction writes the parameters. -/
theorem exec_params (h : exec i s = .next t) : t.params = s.params := by
  cases exec_effect h <;> simp

/-- Only a PUSH of a register writes memory, and it sets one cell. -/
theorem exec_mem (h : exec i s = .next t) :
    t.mem = s.mem ∨ ∃ r, i = .push (operandByte r) ∧ t.mem = s.mem.set (pushAddress s) (reg r (decrementSp s)) := by
  cases exec_effect h with
  | push r => exact .inr ⟨r, rfl, rfl⟩
  | _ => exact .inl (by simp)

/-- Only a CMP of registers writes FL. -/
theorem exec_fl (h : exec i s = .next t) :
    t.fl = s.fl ∨ ∃ a b, i = .cmp (operandByte a) (operandByte b) ∧
      t.fl = compareFlags s.params.cmpMode (reg a s) (reg b s) := by
  cases exec_effect h with
  | cmp a b => exact .inr ⟨a, b, rfl, rfl⟩
  | _ => exact .inl (by simp)

/-- Only a PRN of a register writes the output, and it appends one byte. -/
theorem exec_output (h : exec i s = .next t) :
    t.output = s.output ∨ ∃ r, i = .prn (operandByte r) ∧ t.output = s.output ++ [reg r s] := by
  cases exec_effect h with
  | prn r => exact .inr ⟨r, rfl, rfl⟩
  | _ => exact .inl (by simp)

/-- The pc stays, is loaded with a byte, or advances by the width of the instruction. -/
theorem exec_pc (h : exec i s = .next t) :
    t.pc = s.pc ∨ t.pc < 256 ∨ t.pc = s.pc + width (mnemonicOf i) := by
  cases exec_effect h with
  | hlt | bad => exact .inl rfl
  | jmp r => exact .inr (.inl (reg r s).isLt)
  | jeq r | jne r =>
    rw [branch_pc]
    split
    · exact .inr (.inl (reg r s).isLt)
    · exact .inr (.inr rfl)
  | _ => exact .inr (.inr rfl)

/-- The status stays, or HLT halts, or an operand out of range faults. -/
theorem exec_status (h : exec i s = .next t) :
    (i.wellFormed = true ∧ t.status = s.status) ∨ (i = .hlt ∧ t = halt s) ∨
      ∃ v ∈ registerOperands i, 8 ≤ v.toNat ∧ t = raiseFault (registerFault (mnemonicOf i) v s) s := by
  cases exec_effect h with
  | hlt => exact .inr (.inl ⟨rfl, rfl⟩)
  | bad _ v hv hrange => exact .inr (.inr ⟨v, hv, hrange, rfl⟩)
  | _ => exact .inl (by simp [Instr.wellFormed, registerOperands])

end

/-! ### Frames -/

/-- Settles O25, by the one cell that a PUSH sets. -/
theorem onlyPushWritesMemory : Obligations.OnlyPushWritesMemory := by
  unfold Obligations.OnlyPushWritesMemory
  intro s t i h
  obtain hmem | ⟨r, rfl, hmem⟩ := exec_mem h
  · exact ⟨fun _ _ a _ => sameMem_of_mem_eq hmem a, fun _ => sameMem_of_mem_eq hmem⟩
  · refine ⟨fun _ _ a ha => ?otherCell, fun hne => absurd rfl (hne _)⟩
    case otherCell => rw [byteAt, hmem, Memory.get_set_other _ _ ha, byteAt]

/-- Settles O26, by the register writes of each instruction. -/
theorem onlyDestinationsChange : Obligations.OnlyDestinationsChange := by
  unfold Obligations.OnlyDestinationsChange
  intro s t i h k hk
  cases exec_effect h with
  | ldi d imm | mul d r =>
    rw [writtenRegisters, namedRegister_operandByte] at hk
    exact sameRegsBut_setReg s d _ k hk
  | push r => rw [reg_advance, reg_setMem, reg_decrementSp, if_neg (List.ne_of_not_mem_cons hk)]
  | pop d =>
    simp only [writtenRegisters, namedRegister_operandByte, List.mem_append, List.mem_singleton, not_or] at hk
    obtain ⟨hd, hsp⟩ := hk
    rw [reg_advance, reg_incrementSp, if_neg hsp, reg_setReg_other _ _ _ hd]
  | _ => simp

/-- Settles O27: what does not keep FL is a CMP. -/
theorem onlyCmpWritesFlags : Obligations.OnlyCmpWritesFlags := by
  unfold Obligations.OnlyCmpWritesFlags
  intro s t i h hne
  obtain hfl | ⟨a, b, rfl, -⟩ := exec_fl h
  · exact hfl
  · exact absurd rfl (hne _ _)

/-- Settles O28: a step takes a fault, which emits nothing, or runs one instruction. -/
theorem onlyPrnWritesOutput : Obligations.OnlyPrnWritesOutput := by
  unfold Obligations.OnlyPrnWritesOutput
  refine ⟨fun s t i h hne => ?exec, fun s t h => ?step⟩
  case exec =>
    obtain houtput | ⟨r, rfl, -⟩ := exec_output h
    · exact houtput
    · exact absurd rfl (hne _)
  case step =>
    obtain ⟨-, ⟨e, -, rfl⟩ | ⟨i, -, hexec⟩⟩ := step_cases h
    · exact .inl rfl
    · exact (exec_output hexec).imp_right fun ⟨r, _, houtput⟩ => ⟨reg r s, houtput⟩

/-- Settles O30: neither a fault nor an instruction writes them. -/
theorem parametersNeverChange : Obligations.ParametersNeverChange := by
  unfold Obligations.ParametersNeverChange
  intro s t h
  obtain ⟨-, ⟨e, -, rfl⟩ | ⟨i, -, hexec⟩⟩ := step_cases h
  · exact raiseFault_params _ s
  · exact exec_params hexec

/-- Settles O29: of the three things that can become of the status, well-formedness excludes the fault and ill-formedness the other two. -/
theorem onlyHltAndBadOperandsEndRun : Obligations.OnlyHltAndBadOperandsEndRun := by
  unfold Obligations.OnlyHltAndBadOperandsEndRun
  intro s t i h
  obtain ⟨hw, hstatus⟩ | ⟨rfl, -⟩ | ⟨v, hv, hrange, rfl⟩ := exec_status h
  · exact ⟨fun _ _ => hstatus, fun hbad => absurd (hw.symm.trans hbad) (by decide)⟩
  · exact ⟨fun _ hne => absurd rfl hne, fun hbad => absurd hbad (by decide)⟩
  · exact ⟨fun hw _ => absurd (toNat_lt_of_wellFormed hw hv) (Nat.not_lt.2 hrange), fun _ => ⟨_, rfl, rfl⟩⟩

end Sys2Proof.Machine
end

section
/-!
SUPPORT. The legal states: reset is legal, and every step, every run and every load from a legal state ends in one.
-/

namespace Sys2Proof.Machine

variable {s t : State}

/-- A fault changes the status alone, of which legality says nothing. -/
theorem Legal.raiseFault (hl : Legal s) (f : FaultRecord) : Legal (raiseFault f s) :=
  ⟨hl.mem, hl.pc, hl.flags, hl.opcodes⟩

/-- An instruction that lies inside memory keeps a state legal. -/
theorem Legal.exec {i : Instr} (hl : Legal s) (hend : s.pc + width (mnemonicOf i) ≤ 256) (h : exec i s = .next t) : Legal t where
  mem := by
    obtain hmem | ⟨r, -, hmem⟩ := exec_mem h
    · exact hmem ▸ hl.mem
    · exact hmem ▸ Memory.set_wf hl.mem (pushAddress_lt s) _
  pc := by
    have hpc := hl.pc
    obtain hpc' | hpc' | hpc' := exec_pc h <;> omega
  flags := by
    rw [exec_params h]
    obtain hfl | ⟨a, b, -, hfl⟩ := exec_fl h
    · exact hfl ▸ hl.flags
    · exact hfl ▸ compareFlags_legal ..
  opcodes := by
    rw [exec_params h]
    exact hl.opcodes

/-- Settles O44: a fetched instruction lies inside memory, so that running it keeps the state legal. -/
theorem stepKeepsLegal : Obligations.StepKeepsLegal := by
  unfold Obligations.StepKeepsLegal
  intro s t hl h
  obtain ⟨-, ⟨e, -, rfl⟩ | ⟨i, hfetch, hexec⟩⟩ := step_cases h
  · exact hl.raiseFault _
  · exact hl.exec (fetch_ok_end hfetch) hexec

/-- Settles O43, by evaluation of the one state. -/
theorem resetIsLegal : Obligations.ResetIsLegal := by
  unfold Obligations.ResetIsLegal
  exact ⟨by decide, by decide, by decide, by decide⟩

/-- A run with fuel left goes on from the next state. -/
theorem runFor_succ {k : Nat} (h : step s = .next t) : runFor (k + 1) s = runFor k t := by
  simp only [runFor, h]

/-- A run of any length keeps a state legal. -/
theorem Legal.runFor (k : Nat) (hl : Legal s) : Legal (runFor k s) := by
  induction k generalizing s with
  | zero => exact hl
  | succ k ih =>
    cases h : step s with
    | next t => exact runFor_succ h ▸ ih (stepKeepsLegal s t hl h)
    | fault | refused => simpa only [Machine.runFor, h] using hl

/-- Reset with distinct opcodes is legal, whatever `MEM_INIT` is: FL is 0, a value of both modes. -/
theorem legal_resetWith {p : Params} (hp : p.opcodes.WellFormed) (memInit : Nat → Byte) : Legal (resetWith p memInit) where
  mem := Memory.ofFn_wf memInit
  pc := Nat.zero_le _
  flags := by
    change flReset ∈ legalFlags p.cmpMode
    cases p.cmpMode <;> decide
  opcodes := hp

/-- Loading writes memory alone, and keeps its canonical form. -/
theorem Legal.loadProgram (hl : Legal s) (program : List Byte) : Legal (loadProgram program s).1 := by
  obtain ⟨m, hload, hwf⟩ := loadFrom_spec 0 program s
  rw [Machine.loadProgram, hload]
  exact ⟨hwf hl.mem, hl.pc, hl.flags, hl.opcodes⟩

/-- Settles O45: reset, load and run each keep legality. -/
theorem launchedRunsStayLegal : Obligations.LaunchedRunsStayLegal := by
  unfold Obligations.LaunchedRunsStayLegal
  exact ⟨fun k s hl => hl.runFor k,
    fun p memInit program k hp => ((legal_resetWith hp memInit).loadProgram program).runFor k⟩

end Sys2Proof.Machine
end

section
/-!
SUPPORT. Steps on bytes that memory holds: what is fetched is what was encoded there, and a fetch that fails is a fault.
-/

namespace Sys2Proof.Machine

variable {s t : State} {i : Instr}

/-- A fetch answers what the bytes at the pc decode to. -/
theorem fetch_eq_ok : fetch s = .ok i ↔ decodeFrom s.params.opcodes (byteAtPc s) = .ok i := by
  unfold fetch
  cases decodeFrom s.params.opcodes (byteAtPc s) <;> simp

/-- The bytes that memory holds at the pc are the bytes that a fetch reads. -/
theorem byteAtPc_of_holdsBytes {bytes : List Byte} (h : HoldsBytes s s.pc bytes) {k : Nat} {b : Byte}
    (hb : bytes[k]? = some b) : byteAtPc s k = some b := by
  obtain ⟨hend, hbytes⟩ := h
  obtain ⟨hk, -⟩ := List.getElem?_eq_some_iff.1 hb
  rw [byteAtPc_of_lt (by omega), ← hb, hbytes k hk, byteAt]

/-- A step runs the instruction whose encoding memory holds at the pc. -/
theorem step_of_holdsBytes (hs : s.status = .running) (hm : s.params.opcodes.WellFormed)
    (h : HoldsBytes s s.pc (encode s.params.opcodes i)) : step s = exec i s :=
  step_of_decode_ok hs (decodeFrom_of_encode hm fun _ _ hb => byteAtPc_of_holdsBytes h hb)

/-- Settles O2: the encoding in memory is what the fetch decodes. -/
theorem stepRunsEncodedInstruction : Obligations.StepRunsEncodedInstruction := by
  unfold Obligations.StepRunsEncodedInstruction
  exact fun s i hs hm h => step_of_holdsBytes hs hm h

/-- Settles O1: the step runs what it decodes, well-formed or not. -/
theorem stepRunsDecodedInstruction : Obligations.StepRunsDecodedInstruction := by
  unfold Obligations.StepRunsDecodedInstruction
  exact fun s i hs _ hdec => step_of_decode_ok hs hdec

/-- Settles O34: the opcode byte is the first one missing. -/
theorem opcodeFetchPastEndFaults : Obligations.OpcodeFetchPastEndFaults := by
  unfold Obligations.OpcodeFetchPastEndFaults
  intro s hs hpc
  have h0 : byteAtPc s 0 = none := byteAtPc_of_ge hpc
  have hdec : decodeFrom s.params.opcodes (byteAtPc s) = .error (.missingByte 0 none) := by simp only [decodeFrom, h0]
  exact step_of_decode_error hs hdec

/-- Settles O36: address 256 is the first one missing, whatever the mnemonic. -/
theorem operandFetchPastEndFaults : Obligations.OperandFetchPastEndFaults := by
  unfold Obligations.OperandFetchPastEndFaults
  exact fun s n hs hm hlt hop hend => step_pastEnd hs hm hlt hop hend

/-- Settles O39, by the status that `step` reads first. -/
theorem terminalStatesTakeNoStep : Obligations.TerminalStatesTakeNoStep := by
  unfold Obligations.TerminalStatesTakeNoStep
  exact fun s => ⟨fun h => by simp only [step, h], fun f h => by simp only [step, h]⟩

/-- Settles O40: the fetch faults, or it answers an instruction, and every instruction answers a next state. -/
theorem runningStatesAlwaysStep : Obligations.RunningStatesAlwaysStep := by
  unfold Obligations.RunningStatesAlwaysStep
  intro s hs
  rw [step_running hs]
  cases fetch s with
  | error f => exact ⟨_, rfl⟩
  | ok i => exact exec_next i s

end Sys2Proof.Machine
end

section
/-!
SUPPORT. How a step can end a run (40_dispatch.md R80, 60_exceptions.md R166, R167): by HLT, or by a fault that changes nothing but the
status.
-/

namespace Sys2Proof.Machine

variable {s t : State} {i : Instr}

/-! ### The first operand out of range -/

/-- The operands are searched in their order. -/
theorem find_badOperand_cons {a v : Byte} {rest : List Byte} :
    (a :: rest).find? (fun x => !namesRegister x) = some v ↔
      (8 ≤ a.toNat ∧ a = v) ∨ (a.toNat < 8 ∧ rest.find? (fun x => !namesRegister x) = some v) := by
  by_cases ha : a.toNat < 8
  · simp [namesRegister, ha]
  · simp [namesRegister, ha, Nat.le_of_not_lt ha]

/-- One operand: it is the one out of range. -/
theorem find_badOperand_one {a v : Byte} : [a].find? (fun x => !namesRegister x) = some v ↔ 8 ≤ a.toNat ∧ a = v := by
  rw [find_badOperand_cons, List.find?_nil]
  simp only [reduceCtorEq, and_false, or_false]

/-- Two operands: the first is out of range, or only the second. -/
theorem find_badOperand_two {a b v : Byte} :
    [a, b].find? (fun x => !namesRegister x) = some v ↔
      (8 ≤ a.toNat ∧ a = v) ∨ (a.toNat < 8 ∧ 8 ≤ b.toNat ∧ b = v) := by
  rw [find_badOperand_cons, find_badOperand_one]

/-- An instruction takes the fault of its first operand out of range. -/
theorem exec_of_firstBadOperand {v : Byte} (h : firstBadOperand i = some v) :
    exec i s = .next (raiseFault (registerFault (mnemonicOf i) v s) s) := by
  cases i with
  | hlt => cases h
  | ldi a imm => obtain ⟨ha, rfl⟩ := find_badOperand_one.1 h; exact execLdi_bad imm s ha
  | prn a => obtain ⟨ha, rfl⟩ := find_badOperand_one.1 h; exact execPrn_bad s ha
  | push a => obtain ⟨ha, rfl⟩ := find_badOperand_one.1 h; exact execPush_bad s ha
  | pop a => obtain ⟨ha, rfl⟩ := find_badOperand_one.1 h; exact execPop_bad s ha
  | jmp a => obtain ⟨ha, rfl⟩ := find_badOperand_one.1 h; exact execJmp_bad s ha
  | jeq a => obtain ⟨ha, rfl⟩ := find_badOperand_one.1 h; exact execJeq_bad s ha
  | jne a => obtain ⟨ha, rfl⟩ := find_badOperand_one.1 h; exact execJne_bad s ha
  | mul a b =>
    obtain ⟨ha, rfl⟩ | ⟨ha, hb, rfl⟩ := find_badOperand_two.1 h
    · exact execMul_bad_a s ha
    · exact execMul_bad_b s ha hb
  | cmp a b =>
    obtain ⟨ha, rfl⟩ | ⟨ha, hb, rfl⟩ := find_badOperand_two.1 h
    · exact execCmp_bad_a s ha
    · exact execCmp_bad_b s ha hb

/-- Settles O33, by the fault of the first operand out of range. -/
theorem badRegisterFaults : Obligations.BadRegisterFaults := by
  unfold Obligations.BadRegisterFaults
  exact fun s i v h => exec_of_firstBadOperand h

/-! ### The record of a fetch -/

@[simp] theorem decodeFault_pc (e : DecodeError) (s : State) : (decodeFault e s).pc = s.pc := by
  cases e <;> rfl

theorem decodeFault_kind_ne_unsupported (e : DecodeError) (s : State) :
    (decodeFault e s).kind ≠ .unsupportedOperation := by
  cases e <;> exact fun h => nomatch h

/-! ### The three endings of a step -/

/-- A step leaves the machine running, or runs a HLT, or takes a fault in its own state: one that records its own pc and is not
UnsupportedOperation, which only the ALU raises and no instruction asks it to. -/
theorem step_ending (h : step s = .next t) :
    t.status = .running ∨ (fetch s = .ok .hlt ∧ t = halt s) ∨
      ∃ f, t = raiseFault f s ∧ f.pc = s.pc ∧ f.kind ≠ .unsupportedOperation := by
  obtain ⟨hs, ⟨e, -, rfl⟩ | ⟨i, hfetch, hexec⟩⟩ := step_cases h
  · exact .inr (.inr ⟨_, rfl, decodeFault_pc e s, decodeFault_kind_ne_unsupported e s⟩)
  · obtain ⟨-, hstatus⟩ | ⟨rfl, rfl⟩ | ⟨v, -, -, rfl⟩ := exec_status hexec
    · exact .inl (hstatus.trans hs)
    · exact .inr (.inl ⟨hfetch, rfl⟩)
    · exact .inr (.inr ⟨_, rfl, rfl, fun h => nomatch h⟩)

/-- A step that ends in `Faulted` took that fault in its own state. -/
theorem step_faulted {f : FaultRecord} (h : step s = .next t) (hf : t.status = .faulted f) :
    t = raiseFault f s ∧ f.pc = s.pc ∧ f.kind ≠ .unsupportedOperation := by
  obtain hrunning | ⟨-, rfl⟩ | ⟨g, rfl, hg⟩ := step_ending h
  · cases hrunning.symm.trans hf
  · cases hf
  · cases hf
    exact ⟨rfl, hg⟩

/-- Settles O37: the fault was taken in the old state. -/
theorem faultsArePrecise : Obligations.FaultsArePrecise := by
  unfold Obligations.FaultsArePrecise
  intro s t f h hf
  obtain ⟨hstate, hpc, -⟩ := step_faulted h hf
  exact ⟨hstate, hpc⟩

/-- Settles O38: no fault that a step takes is of that kind. -/
theorem unsupportedOperationUnreachable : Obligations.UnsupportedOperationUnreachable := by
  unfold Obligations.UnsupportedOperationUnreachable
  intro s t f h hf
  obtain ⟨-, -, hkind⟩ := step_faulted h hf
  exact hkind

/-- A fetched HLT stands in memory at the pc. -/
theorem byteAt_pc_of_fetch_hlt (h : fetch s = .ok .hlt) : s.pc < 256 ∧ byteAt s s.pc = opcodeHlt := by
  have hlt : s.pc < 256 := fetch_ok_end h
  obtain ⟨op, hop, hlookup, -⟩ := decodeFrom_ok (fetch_eq_ok.1 h)
  have hbyte : byteAt s s.pc = op := Option.some.inj ((byteAtPc_of_lt hlt).symm.trans hop)
  exact ⟨hlt, hbyte.trans (opcodeOf_of_decodeOpcode hlookup).symm⟩

/-- Settles O41: of the three endings only HLT's is `Halted`. -/
theorem haltedOnlyByHlt : Obligations.HaltedOnlyByHlt := by
  unfold Obligations.HaltedOnlyByHlt
  intro s t h ht
  obtain hrunning | ⟨hfetch, rfl⟩ | ⟨f, rfl, -⟩ := step_ending h
  · cases hrunning.symm.trans ht
  · obtain ⟨hlt, hbyte⟩ := byteAt_pc_of_fetch_hlt hfetch
    exact ⟨hlt, hbyte, rfl⟩
  · cases ht

end Sys2Proof.Machine
end

section
/-!
SUPPORT. Each instruction on registers: the state that its meaning answers, and the claims about one instruction that read it off.
-/

namespace Sys2Proof.Machine

variable (s : State) (a b r : RegIndex)

/-! ### The meanings on registers -/

theorem exec_mul_operandByte : exec (.mul (operandByte a) (operandByte b)) s =
    .next (advance .mul (setReg a (aluMul (reg a s) (reg b s)) s)) := exec_mul_of_aluApply rfl

theorem exec_cmp_operandByte : exec (.cmp (operandByte a) (operandByte b)) s =
    .next (advance .cmp (setFl (compareFlags s.params.cmpMode (reg a s) (reg b s)) s)) := by
  simp only [exec, execCmp, checkReg_operandByte]
  rfl

theorem exec_prn_operandByte : exec (.prn (operandByte r)) s = .next (advance .prn (emit (reg r s) s)) := by
  simp only [exec, execPrn, checkReg_operandByte]
  rfl

theorem exec_jmp_operandByte : exec (.jmp (operandByte r)) s = .next (jumpTo (reg r s) s) := by
  simp only [exec, execJmp, checkReg_operandByte]
  rfl

theorem exec_jeq_operandByte : exec (.jeq (operandByte r)) s = .next (branch .jeq (equalBit s.fl) r s) := by
  simp only [exec, execJeq, checkReg_operandByte]
  rfl

theorem exec_jne_operandByte : exec (.jne (operandByte r)) s = .next (branch .jne (!equalBit s.fl) r s) := by
  simp only [exec, execJne, checkReg_operandByte]
  rfl

/-- The state after a PUSH of register `r`. -/
def afterPush : State :=
  advance .push (setMem (s.mem.set (pushAddress s) (reg r (decrementSp s))) (decrementSp s))

theorem exec_push_operandByte : exec (.push (operandByte r)) s = .next (afterPush s r) := by
  simp only [exec, execPush, checkReg_operandByte, storeAtSp_eq]
  rfl

/-- The state after a POP of register `r`. -/
def afterPop : State := advance .pop (incrementSp (setReg r (s.mem.get (spAddress s)) s))

theorem exec_pop_operandByte : exec (.pop (operandByte r)) s = .next (afterPop s r) := by
  simp only [exec, execPop, checkReg_operandByte, loadAtSp_eq]
  rfl

/-- What an effect says of a well-formed instruction is what its meaning answers. -/
theorem exec_of_effect {s t : State} {i : Instr} (hw : i.wellFormed = true) (h : Effect s i t) : exec i s = .next t := by
  cases h with
  | hlt => rfl
  | ldi d imm => exact exec_ldi_operandByte s d imm
  | prn r => exact exec_prn_operandByte s r
  | mul d r => exact exec_mul_operandByte s d r
  | push r => exact exec_push_operandByte s r
  | pop d => exact exec_pop_operandByte s d
  | cmp a b => exact exec_cmp_operandByte s a b
  | jmp r => exact exec_jmp_operandByte s r
  | jeq r => exact exec_jeq_operandByte s r
  | jne r => exact exec_jne_operandByte s r
  | bad _ v hv hrange => exact absurd (toNat_lt_of_wellFormed hw hv) (Nat.not_lt.2 hrange)

/-! ### The ALU -/

/-- The byte that ADD writes is the exact sum modulo 256. -/
theorem toNat_aluAdd (u v : Byte) : (aluAdd u v).toNat = (u.toNat + v.toNat) % 256 := BitVec.toNat_ofNat ..

/-- Settles O10: ADD writes `x[d]` alone, and an operation outside the set is the record that names it. -/
theorem aluAddAndUnsupported : Obligations.AluAddAndUnsupported := by
  unfold Obligations.AluAddAndUnsupported
  refine ⟨fun s d src => ?add, fun s d src name => ⟨_, rfl, rfl, rfl, rfl⟩⟩
  case add =>
    refine ⟨setReg d (aluAdd (reg d s) (reg src s)) s, rfl, ?sum, sameRegsBut_setReg s d _,
      rfl, rfl, rfl, rfl, sameMem_of_mem_eq rfl, rfl⟩
    case sum => rw [reg_setReg_self, toNat_aluAdd]

/-- In mode REFERENCE_OVERLAP the new FL is G and E, or L, or E, by the unsigned values. -/
theorem compareFlags_referenceOverlap (u v : Byte) :
    compareFlags .referenceOverlap u v =
      if u.toNat > v.toNat then 0b00000011 else if u.toNat < v.toNat then 0b00000100 else 0b00000001 := by
  simp only [compareFlags, compareOverlap, gt_iff_lt]
  obtain hgt | heq | hlt := lt_trichotomy v.toNat u.toNat
  · rw [if_pos hgt, if_neg hgt.not_gt, if_pos hgt]; rfl
  · simp only [heq, lt_irrefl, if_false]; rfl
  · rw [if_neg hlt.not_gt, if_pos hlt, if_neg hlt.not_gt, if_pos hlt]; rfl

/-- Settles O12: the one write is of FL, by the comparison in the machine's mode. -/
theorem compareOverlapFlags : Obligations.CompareOverlapFlags := by
  unfold Obligations.CompareOverlapFlags
  intro s d src hmode
  refine ⟨setFl (compareFlags s.params.cmpMode (reg d s) (reg src s)) s, rfl, ?flags, sameRegsBut_setFl s _,
    rfl, rfl, rfl, sameMem_of_mem_eq rfl, rfl⟩
  case flags => rw [setFl_fl, hmode, compareFlags_referenceOverlap]

/-! ### CMP -/

/-- The new FL, its mode's value for "greater" beside the two that the modes share. -/
theorem compareFlags_eq (mode : CmpFlagMode) (u v : Byte) :
    compareFlags mode u v =
      if u.toNat > v.toNat then (match mode with | .exclusive => 0x02 | .referenceOverlap => 0x03)
      else if u.toNat < v.toNat then 0x04 else 0x01 := by
  cases mode with
  | exclusive => exact compareFlags_exclusive u v
  | referenceOverlap => exact compareFlags_referenceOverlap u v

/-- Settles O17: the comparison in the machine's mode is the one value written. -/
theorem cmpWritesFlags : Obligations.CmpWritesFlags := by
  unfold Obligations.CmpWritesFlags
  intro s a b
  exact ⟨_, exec_cmp_operandByte s a b, compareFlags_eq .., (sameRegsBut_setFl s _).advance .cmp,
    rfl, rfl, rfl, sameMem_of_mem_eq rfl, rfl⟩

/-- The bits of a byte below 8 end at bit 2. -/
theorem getLsbD_eq_false_of_lt {v : Byte} (hv : v.toNat < 8) {k : Nat} (hk : 3 ≤ k) : v.getLsbD k = false :=
  Nat.testBit_lt_two_pow (hv.trans_le (Nat.pow_le_pow_right Nat.two_pos hk))

/-- In mode EXCLUSIVE the three comparisons exclude each other, and each has its own value of FL. -/
theorem compareFlags_exclusive_cases (u v : Byte) :
    (u.toNat > v.toNat ∧ compareFlags .exclusive u v = 0b00000010) ∨
      (u.toNat < v.toNat ∧ compareFlags .exclusive u v = 0b00000100) ∨
      (u.toNat = v.toNat ∧ compareFlags .exclusive u v = 0b00000001) := by
  rw [compareFlags_exclusive]
  split_ifs with hgt hlt
  · exact .inl ⟨hgt, rfl⟩
  · exact .inr (.inl ⟨hlt, rfl⟩)
  · exact .inr (.inr ⟨by omega, rfl⟩)

/-- Settles O13, for each of the three comparisons by the value of FL that is its own. -/
theorem cmpSetsExactlyOneFlag : Obligations.CmpSetsExactlyOneFlag := by
  unfold Obligations.CmpSetsExactlyOneFlag
  intro s t a b hmode h
  cases (exec_cmp_operandByte s a b).symm.trans h
  rw [advance_fl, setFl_fl, hmode, ← BitVec.toNat_inj]
  obtain ⟨hgt, hfl⟩ | ⟨hlt, hfl⟩ | ⟨heq, hfl⟩ := compareFlags_exclusive_cases (reg a s) (reg b s) <;> rw [hfl]
  · exact ⟨by simp [hgt.ne'], by simp [hgt], by simp [hgt.le], fun k hk => getLsbD_eq_false_of_lt (by decide) hk, by decide⟩
  · exact ⟨by simp [hlt.ne], by simp [hlt.le], by simp [hlt], fun k hk => getLsbD_eq_false_of_lt (by decide) hk, by decide⟩
  · exact ⟨by simp [heq], by simp [heq], by simp [heq], fun k hk => getLsbD_eq_false_of_lt (by decide) hk, by decide⟩

/-! ### PRN and the jumps -/

/-- Settles O15: PRN writes the output alone and advances. -/
theorem prnEmitsRegister : Obligations.PrnEmitsRegister := by
  unfold Obligations.PrnEmitsRegister
  intro s r
  exact ⟨_, exec_prn_operandByte s r, rfl, fun _ _ => rfl, rfl, rfl, rfl, sameMem_of_mem_eq rfl, rfl⟩

/-- Settles O20: JMP writes the pc alone, with a byte. -/
theorem jmpLoadsPc : Obligations.JmpLoadsPc := by
  unfold Obligations.JmpLoadsPc
  intro s r
  exact ⟨_, exec_jmp_operandByte s r, rfl, (reg r s).isLt, fun _ _ => rfl, rfl, rfl, rfl, sameMem_of_mem_eq rfl, rfl⟩

/-- Bit 0 of FL is its parity. -/
theorem equalBit_eq_true {fl : Byte} : equalBit fl = true ↔ fl.toNat % 2 = 1 := by
  simp [equalBit, BitVec.getLsbD, Nat.testBit_zero]

/-- Settles O21: the branch writes the pc alone, and its condition is the parity of FL. -/
theorem jeqJumpsWhenEqual : Obligations.JeqJumpsWhenEqual := by
  unfold Obligations.JeqJumpsWhenEqual
  intro s r
  refine ⟨_, exec_jeq_operandByte s r, ?pc, fun k _ => reg_branch k .., branch_fl .., branch_status .., branch_output ..,
    sameMem_of_mem_eq (branch_mem ..), branch_params ..⟩
  case pc => simp only [branch_pc, equalBit_eq_true]; rfl

/-- Settles O22: the branch writes the pc alone, and its condition is the other parity of FL. -/
theorem jneJumpsWhenNotEqual : Obligations.JneJumpsWhenNotEqual := by
  unfold Obligations.JneJumpsWhenNotEqual
  intro s r
  refine ⟨_, exec_jne_operandByte s r, ?pc, fun k _ => reg_branch k .., branch_fl .., branch_status .., branch_output ..,
    sameMem_of_mem_eq (branch_mem ..), branch_params ..⟩
  case pc =>
    have hbit : (!equalBit s.fl) = true ↔ s.fl.toNat % 2 = 0 := by
      rw [Bool.not_eq_true', ← Bool.not_eq_true, equalBit_eq_true, Nat.mod_two_not_eq_one]
    simp only [branch_pc, hbit]
    rfl

/-! ### A branch after a CMP -/

/-- In mode EXCLUSIVE, E is set exactly for equal values. -/
theorem equalBit_compareFlags_exclusive (u v : Byte) : equalBit (compareFlags .exclusive u v) = true ↔ u = v := by
  rw [compareFlags_exclusive, ← BitVec.toNat_inj]
  split_ifs <;> simp [equalBit] <;> omega

/-- In mode REFERENCE_OVERLAP, E is set exactly when the first value is not less. -/
theorem equalBit_compareFlags_referenceOverlap (u v : Byte) :
    equalBit (compareFlags .referenceOverlap u v) = true ↔ v.toNat ≤ u.toNat := by
  rw [compareFlags_referenceOverlap]
  split_ifs <;> simp [equalBit] <;> omega

/-- JEQ jumps and JNE goes on when the E bit is set, and the other way round when it is not. -/
theorem branch_pc_of_equalBit {s : State} (r : RegIndex) {equal : Prop} (hequal : equalBit s.fl = true ↔ equal) :
    (equal → (branch .jeq (equalBit s.fl) r s).pc = (reg r s).toNat ∧ (branch .jne (!equalBit s.fl) r s).pc = s.pc + 2) ∧
    (¬ equal → (branch .jeq (equalBit s.fl) r s).pc = s.pc + 2 ∧ (branch .jne (!equalBit s.fl) r s).pc = (reg r s).toNat) := by
  rw [← hequal, branch_pc, branch_pc]
  cases equalBit s.fl with
  | false => exact ⟨nofun, fun _ => ⟨rfl, rfl⟩⟩
  | true => exact ⟨fun _ => ⟨rfl, rfl⟩, fun h => absurd rfl h⟩

/-- Settles O24: the E bit that the CMP leaves, in the machine's mode, decides both jumps. -/
theorem branchAfterCompare : Obligations.BranchAfterCompare := by
  unfold Obligations.BranchAfterCompare
  intro s t u w a b r ht hu hw
  cases (exec_cmp_operandByte s a b).symm.trans ht
  cases (exec_jeq_operandByte _ r).symm.trans hu
  cases (exec_jne_operandByte _ r).symm.trans hw
  refine branch_pc_of_equalBit r ?equal
  case equal =>
    rw [advance_fl, setFl_fl]
    cases s.params.cmpMode with
    | exclusive => exact equalBit_compareFlags_exclusive ..
    | referenceOverlap => exact equalBit_compareFlags_referenceOverlap ..

end Sys2Proof.Machine
end

section
/-!
SUPPORT. What an instruction does not read: the bits of FL but bit 0, and the output. Each effect is carried over to a state that differs
there.
-/

namespace Sys2Proof.Machine

variable {s t : State} {i : Instr}

/-- An instruction none of whose operands is out of range is well-formed. -/
theorem wellFormed_of_firstBadOperand_eq_none (h : firstBadOperand i = none) : i.wellFormed = true :=
  List.all_eq_true.2 fun v hv => by simpa using List.find?_eq_none.1 h v hv

/-- An instruction with an operand out of range is not well-formed. -/
theorem not_wellFormed_of_firstBadOperand {v : Byte} (h : firstBadOperand i = some v) : i.wellFormed ≠ true := by
  intro hw
  have hgood := List.all_eq_true.1 hw v (List.mem_of_find?_eq_some h)
  have hbad := List.find?_some h
  simp [hgood] at hbad

/-! ### FL -/

theorem setFl_branch (f : Byte) (n : Mnemonic) (taken : Bool) (r : RegIndex) (s : State) :
    setFl f (branch n taken r s) = branch n taken r (setFl f s) := by cases taken <;> rfl

/-- With another FL of the same bit 0, an instruction other than CMP has the same effect and leaves that FL. -/
theorem Effect.setFl {f : Byte} (h : Effect s i t) (hf : equalBit f = equalBit s.fl) (hne : ∀ a b, i ≠ .cmp a b) :
    Effect (setFl f s) i (setFl f t) := by
  cases h with
  | hlt => exact .hlt
  | ldi d imm => exact .ldi d imm
  | prn r => exact .prn r
  | mul d r => exact .mul d r
  | push r => exact .push r
  | pop d => exact .pop d
  | cmp a b => exact absurd rfl (hne _ _)
  | jmp r => exact .jmp r
  | jeq r =>
    rw [setFl_branch, ← hf]
    exact .jeq r
  | jne r =>
    rw [setFl_branch, ← hf]
    exact .jne r
  | bad _ v hv hrange => exact .bad _ v hv hrange

/-- A CMP of registers answers the same state whatever FL was. -/
theorem exec_cmp_setFl (f : Byte) {a b : Byte} (hw : (Instr.cmp a b).wellFormed = true) (h : exec (.cmp a b) s = .next t) :
    exec (.cmp a b) (setFl f s) = .next t := by
  have ha : a.toNat < 8 := toNat_lt_of_wellFormed hw (by simp [registerOperands])
  have hb : b.toNat < 8 := toNat_lt_of_wellFormed hw (by simp [registerOperands])
  cases (execCmp_ok s ha hb).symm.trans h
  exact execCmp_ok (setFl f s) ha hb

/-- Settles O31: a bad operand faults whatever FL is, a CMP of registers replaces FL, and every other effect is carried over. -/
theorem onlyEqualBitIsRead : Obligations.OnlyEqualBitIsRead := by
  unfold Obligations.OnlyEqualBitIsRead
  intro s t i f hf h
  cases hbad : firstBadOperand i with
  | some v =>
    cases (exec_of_firstBadOperand hbad).symm.trans h
    exact ⟨f, exec_of_firstBadOperand hbad, fun _ _ _ hw => absurd hw (not_wellFormed_of_firstBadOperand hbad), fun _ => rfl⟩
  | none =>
    have hw := wellFormed_of_firstBadOperand_eq_none hbad
    by_cases hcmp : ∃ a b, i = .cmp a b
    · obtain ⟨a, b, rfl⟩ := hcmp
      exact ⟨t.fl, exec_cmp_setFl f hw h, fun _ _ _ _ => rfl, fun hne => absurd rfl (hne a b)⟩
    · have hne : ∀ a b, i ≠ .cmp a b := fun a b hi => hcmp ⟨a, b, hi⟩
      exact ⟨f, exec_of_effect hw ((exec_effect h).setFl hf hne), fun a b hi => absurd hi (hne a b), fun _ => rfl⟩

/-! ### The output -/

/-- The state with bytes put before its output. -/
def prependOutput (earlier : List Byte) (s : State) : State := { s with output := earlier ++ s.output }

theorem prependOutput_branch (earlier : List Byte) (n : Mnemonic) (taken : Bool) (r : RegIndex) (s : State) :
    prependOutput earlier (branch n taken r s) = branch n taken r (prependOutput earlier s) := by cases taken <;> rfl

theorem prependOutput_advance (earlier : List Byte) (n : Mnemonic) (s : State) :
    prependOutput earlier (advance n s) = advance n (prependOutput earlier s) := rfl

/-- What is emitted stands after the bytes put before. -/
theorem prependOutput_emit (earlier : List Byte) (v : Byte) (s : State) :
    prependOutput earlier (emit v s) = emit v (prependOutput earlier s) := by
  simp only [prependOutput, emit, List.append_assoc]

/-- With bytes put before the output an instruction has the same effect, with the same bytes before its output. -/
theorem Effect.prependOutput (earlier : List Byte) (h : Effect s i t) :
    Effect (prependOutput earlier s) i (prependOutput earlier t) := by
  cases h with
  | hlt => exact .hlt
  | ldi d imm => exact .ldi d imm
  | prn r =>
    rw [prependOutput_advance, prependOutput_emit]
    exact .prn r
  | mul d r => exact .mul d r
  | push r => exact .push r
  | pop d => exact .pop d
  | cmp a b => exact .cmp a b
  | jmp r => exact .jmp r
  | jeq r =>
    rw [prependOutput_branch]
    exact .jeq r
  | jne r =>
    rw [prependOutput_branch]
    exact .jne r
  | bad _ v hv hrange => exact .bad _ v hv hrange

/-- Whether its operands are in range or not, an instruction does not read the output. -/
theorem exec_prependOutput (earlier : List Byte) (h : exec i s = .next t) :
    exec i (prependOutput earlier s) = .next (prependOutput earlier t) := by
  cases hbad : firstBadOperand i with
  | some v =>
    cases (exec_of_firstBadOperand hbad).symm.trans h
    exact exec_of_firstBadOperand hbad
  | none => exact exec_of_effect (wellFormed_of_firstBadOperand_eq_none hbad) ((exec_effect h).prependOutput earlier)

/-- Settles O32: the fetch reads memory and the pc, and the instruction does not read the output. -/
theorem outputIsNeverRead : Obligations.OutputIsNeverRead := by
  unfold Obligations.OutputIsNeverRead
  intro s t earlier h
  obtain ⟨hs, ⟨e, hdec, rfl⟩ | ⟨i, hfetch, hexec⟩⟩ := step_cases h
  · exact step_of_decode_error (s := prependOutput earlier s) hs hdec
  · exact (step_of_decode_ok (s := prependOutput earlier s) hs (fetch_eq_ok.1 hfetch)).trans (exec_prependOutput earlier hexec)

end Sys2Proof.Machine
end

section
/-!
SUPPORT. PUSH and POP (43_stack.md): one rule per field of the state after each, then single steps, round trips and runs of pushes.
-/

namespace Sys2Proof.Machine

variable (s : State) (r k : RegIndex)

theorem toNat_sub_one (v : Byte) : (v - 1).toNat = (v.toNat + 255) % 256 := by
  rw [BitVec.toNat_sub, Nat.add_comm]
  rfl

theorem toNat_add_one (v : Byte) : (v + 1).toNat = (v.toNat + 1) % 256 := BitVec.toNat_add ..

/-! ### The state after a PUSH -/

@[simp] theorem afterPush_pc : (afterPush s r).pc = s.pc + 2 := rfl
@[simp] theorem afterPush_fl : (afterPush s r).fl = s.fl := rfl
@[simp] theorem afterPush_status : (afterPush s r).status = s.status := rfl
@[simp] theorem afterPush_output : (afterPush s r).output = s.output := rfl
@[simp] theorem afterPush_params : (afterPush s r).params = s.params := rfl

/-- The byte that a PUSH of a register stores: R7's is the decremented SP (92_eei_decisions.md D23). -/
def pushedByte : Byte := if r = spIndex then reg spIndex s - 1 else reg r s

/-- The address of a push is SP minus 1 modulo 256. -/
theorem pushAddress_eq : pushAddress s = ((reg spIndex s).toNat + 255) % 256 := by
  rw [pushAddress, spAddress, reg_decrementSp, if_pos rfl, toNat_sub_one]

/-- Only SP changes. -/
theorem reg_afterPush : reg k (afterPush s r) = if k = spIndex then reg spIndex s - 1 else reg k s :=
  reg_decrementSp s k

/-- SP is the address stored to. -/
theorem spAddress_afterPush : spAddress (afterPush s r) = pushAddress s := rfl

theorem afterPush_wf {s : State} (hm : s.mem.wf) (r : RegIndex) : (afterPush s r).mem.wf :=
  Memory.set_wf hm (pushAddress_lt s) _

/-- SP goes down by one. -/
theorem reg_sp_afterPush : reg spIndex (afterPush s r) = reg spIndex s - 1 := by rw [reg_afterPush, if_pos rfl]

/-- Every other register is unchanged. -/
theorem reg_afterPush_other {k : RegIndex} (hk : k ≠ spIndex) : reg k (afterPush s r) = reg k s := by
  rw [reg_afterPush, if_neg hk]

/-- The cell stored to holds the byte pushed. -/
theorem byteAt_afterPush_self {s : State} (hm : s.mem.wf) (r : RegIndex) :
    byteAt (afterPush s r) (pushAddress s) = pushedByte s r :=
  (Memory.get_set_self hm _ _).trans (reg_decrementSp s r)

/-- Every other cell is unchanged. -/
theorem sameMemBut_afterPush : SameMemBut (pushAddress s) s (afterPush s r) :=
  fun _ ha => Memory.get_set_other _ _ ha

/-- Settles O18, by the rules of the state after a PUSH. -/
theorem pushStoresRegister : Obligations.PushStoresRegister := by
  unfold Obligations.PushStoresRegister
  intro s r hm
  refine ⟨pushAddress_eq s, afterPush s r, exec_push_operandByte s r, ?sp,
    fun k hk => reg_afterPush_other s r (List.ne_of_not_mem_cons hk),
    byteAt_afterPush_self hm r, sameMemBut_afterPush s r, afterPush_pc s r, afterPush_fl s r, afterPush_status s r,
    afterPush_output s r, afterPush_params s r⟩
  case sp => rw [reg_sp_afterPush, toNat_sub_one]

/-! ### The state after a POP -/

@[simp] theorem afterPop_pc : (afterPop s r).pc = s.pc + 2 := rfl
@[simp] theorem afterPop_fl : (afterPop s r).fl = s.fl := rfl
@[simp] theorem afterPop_status : (afterPop s r).status = s.status := rfl
@[simp] theorem afterPop_output : (afterPop s r).output = s.output := rfl
@[simp] theorem afterPop_mem : (afterPop s r).mem = s.mem := rfl
@[simp] theorem afterPop_params : (afterPop s r).params = s.params := rfl

/-- POP R7 leaves the popped byte plus one in SP (92_eei_decisions.md D23). -/
theorem reg_afterPop_sp : reg spIndex (afterPop s spIndex) = byteAt s (spAddress s) + 1 := by
  rw [afterPop, reg_advance, reg_incrementSp, if_pos rfl, reg_setReg_self, byteAt]

section
variable {r k}

/-- Another register takes the popped byte. -/
theorem reg_afterPop_self (hr : r ≠ spIndex) : reg r (afterPop s r) = byteAt s (spAddress s) := by
  rw [afterPop, reg_advance, reg_incrementSp, if_neg hr, reg_setReg_self, byteAt]

/-- SP goes up by one. -/
theorem reg_sp_afterPop (hr : r ≠ spIndex) : reg spIndex (afterPop s r) = reg spIndex s + 1 := by
  rw [afterPop, reg_advance, reg_incrementSp, if_pos rfl, reg_setReg_other _ _ _ hr.symm]

end

theorem sameRegsBut_afterPop : SameRegsBut [r, spIndex] s (afterPop s r) := by
  intro k hk
  simp only [List.mem_cons, List.not_mem_nil, or_false, not_or] at hk
  obtain ⟨hr, hsp⟩ := hk
  rw [afterPop, reg_advance, reg_incrementSp, if_neg hsp, reg_setReg_other _ _ _ hr]

/-- Settles O19, by the rules of the state after a POP. -/
theorem popLoadsRegister : Obligations.PopLoadsRegister := by
  unfold Obligations.PopLoadsRegister
  intro s r
  refine ⟨afterPop s r, exec_pop_operandByte s r, fun hr => ⟨reg_afterPop_self s hr, ?sp⟩, fun hr => ?popSp,
    sameRegsBut_afterPop s r, sameMem_of_mem_eq (afterPop_mem s r), afterPop_pc s r, afterPop_fl s r, afterPop_status s r,
    afterPop_output s r, afterPop_params s r⟩
  case sp => rw [reg_sp_afterPop s hr, toNat_add_one]
  case popSp => rw [hr, reg_afterPop_sp, toNat_add_one, spAddress]

/-! ### A PUSH and then a POP -/

section
variable {s r} {t : State} {a : Nat} {xs ys : List Byte}

/-- Bytes held one run after the other. -/
theorem HoldsBytes.append (h : HoldsBytes s a (xs ++ ys)) : HoldsBytes s a xs ∧ HoldsBytes s (a + xs.length) ys := by
  obtain ⟨hend, hbytes⟩ := h
  rw [List.length_append] at hend hbytes
  refine ⟨⟨by omega, fun k hk => ?left⟩, ⟨by omega, fun k hk => ?right⟩⟩
  case left => rw [← hbytes k (by omega), List.getElem?_append_left hk]
  case right =>
    have := hbytes (xs.length + k) (by omega)
    rwa [List.getElem?_append_right (by omega), Nat.add_sub_cancel_left, ← Nat.add_assoc] at this

/-- Bytes are held on when the one byte that changed is none of them. -/
theorem HoldsBytes.of_sameMemBut {x : Nat} (h : HoldsBytes s a xs) (hmem : SameMemBut x s t)
    (hx : ∀ k, k < xs.length → a + k ≠ x) : HoldsBytes t a xs := by
  obtain ⟨hend, hbytes⟩ := h
  exact ⟨hend, fun k hk => by rw [hbytes k hk, hmem _ (hx k hk)]⟩

/-- A step on a PUSH. -/
theorem step_push (hs : s.status = .running) (hm : s.params.opcodes.WellFormed)
    (h : HoldsBytes s s.pc (encode s.params.opcodes (.push (operandByte r)))) : step s = .next (afterPush s r) :=
  (step_of_holdsBytes hs hm h).trans (exec_push_operandByte s r)

/-- A step on a POP. -/
theorem step_pop (hs : s.status = .running) (hm : s.params.opcodes.WellFormed)
    (h : HoldsBytes s s.pc (encode s.params.opcodes (.pop (operandByte r)))) : step s = .next (afterPop s r) :=
  (step_of_holdsBytes hs hm h).trans (exec_pop_operandByte s r)

end

/-- What a POP after a PUSH reads is the byte pushed. -/
theorem byteAt_sp_afterPush {s : State} (hwf : s.mem.wf) (r : RegIndex) :
    byteAt (afterPush s r) (spAddress (afterPush s r)) = pushedByte s r := by
  rw [spAddress_afterPush, byteAt_afterPush_self hwf]

/-- SP is restored by a POP into another register. -/
theorem reg_sp_restored {s : State} {q : RegIndex} (hq : q ≠ spIndex) :
    reg spIndex (afterPop (afterPush s r) q) = reg spIndex s := by
  rw [reg_sp_afterPop _ hq, reg_sp_afterPush, BitVec.sub_add_cancel]

section
variable {s} (hwf : s.mem.wf)
include hwf

/-- A register other than SP takes the byte pushed. -/
theorem reg_popped {q : RegIndex} (hq : q ≠ spIndex) : reg q (afterPop (afterPush s r) q) = pushedByte s r := by
  rw [reg_afterPop_self _ hq, byteAt_sp_afterPush hwf]

/-- SP itself takes the byte pushed plus one. -/
theorem reg_popped_sp : reg spIndex (afterPop (afterPush s r) spIndex) = pushedByte s r + 1 := by
  rw [reg_afterPop_sp, byteAt_sp_afterPush hwf]

/-- A register popped from its own push has its own value, and so has SP. -/
theorem reg_roundTrip :
    reg r (afterPop (afterPush s r) r) = reg r s ∧ reg spIndex (afterPop (afterPush s r) r) = reg spIndex s := by
  by_cases hr : r = spIndex
  · subst hr
    have hsp : reg spIndex (afterPop (afterPush s spIndex) spIndex) = reg spIndex s := by
      rw [reg_popped_sp _ hwf, pushedByte, if_pos rfl, BitVec.sub_add_cancel]
    exact ⟨hsp, hsp⟩
  · exact ⟨by rw [reg_popped _ hwf hr, pushedByte, if_neg hr], reg_sp_restored r hr⟩

end

/-- The POP after a PUSH is still in memory when the PUSH does not land on it. -/
theorem holdsBytes_pop_afterPush {s : State} {r q : RegIndex}
    (h : HoldsBytes s s.pc (encode s.params.opcodes (.push (operandByte r)) ++ encode s.params.opcodes (.pop (operandByte q))))
    (hne2 : pushAddress s ≠ s.pc + 2) (hne3 : pushAddress s ≠ s.pc + 3) :
    HoldsBytes (afterPush s r) (afterPush s r).pc (encode (afterPush s r).params.opcodes (.pop (operandByte q))) := by
  refine h.append.2.of_sameMemBut (sameMemBut_afterPush s r) fun k hk => ?_
  change k < 2 at hk
  change s.pc + 2 + k ≠ pushAddress s
  omega

/-- Settles O48: the POP is still in memory after the PUSH, and pops the cell that the PUSH stored to. -/
theorem pushPopRoundTrip : Obligations.PushPopRoundTrip := by
  unfold Obligations.PushPopRoundTrip
  intro s r q hs hwf hm hbytes hne2 hne3
  have hpush : step s = .next (afterPush s r) := step_push hs hm hbytes.append.1
  have hpop : step (afterPush s r) = .next (afterPop (afterPush s r) q) :=
    step_pop hs hm (holdsBytes_pop_afterPush hbytes hne2 hne3)
  refine ⟨_, _, hpush, hpop, fun hq => ⟨reg_popped r hwf hq, reg_sp_restored r hq⟩, ?popSp, ?same, fun k hk => ?regs,
    ?mem, rfl, rfl, hs, rfl⟩
  case popSp =>
    rintro rfl
    exact reg_popped_sp r hwf
  case same =>
    rintro rfl
    exact reg_roundTrip q hwf
  case regs =>
    have hsp : k ≠ spIndex := fun h => hk (by simp [h])
    rw [sameRegsBut_afterPop _ _ k hk, reg_afterPush_other s r hsp]
  case mem => exact sameMemBut_afterPush s r

/-! ### Runs of pushes -/

/-- The address that the `k`-th of a run of pushes from `s` stores to: `k + 1` cells below SP, modulo 256. -/
def pushSlot (k : Nat) : Nat := ((reg spIndex s).toNat + 255 * (k + 1)) % 256

theorem pushAddress_eq_pushSlot : pushAddress s = pushSlot s 0 := pushAddress_eq s

/-- After one push the run goes on with the next slot. -/
theorem pushSlot_afterPush (k : Nat) : pushSlot (afterPush s r) k = pushSlot s (k + 1) := by
  rw [pushSlot, pushSlot, reg_sp_afterPush, toNat_sub_one]
  omega

/-- Up to 256 pushes store to distinct addresses. -/
theorem pushSlot_ne {j k : Nat} (hjk : j < k) (hk : k < j + 256) : pushSlot s j ≠ pushSlot s k := by
  rw [pushSlot, pushSlot]
  omega

/-- The state after the pushes of a list of registers. -/
def afterPushes : List RegIndex → State → State
  | [], s => s
  | r :: rs, s => afterPushes rs (afterPush s r)

/-- Pushes complete. -/
theorem pushAll_eq (rs : List RegIndex) (s : State) : pushAll rs s = some (afterPushes rs s) := by
  induction rs generalizing s with
  | nil => rfl
  | cons r rs ih => simp only [pushAll, exec_push_operandByte, ih, afterPushes]

/-- SP goes down by the number of pushes. -/
theorem reg_sp_afterPushes (rs : List RegIndex) (s : State) :
    (reg spIndex (afterPushes rs s)).toNat = ((reg spIndex s).toNat + 255 * rs.length) % 256 := by
  induction rs generalizing s with
  | nil => exact (Nat.mod_eq_of_lt (reg spIndex s).isLt).symm
  | cons r rs ih =>
    rw [afterPushes, ih, reg_sp_afterPush, toNat_sub_one, List.length_cons]
    omega

/-- Pushes leave every cell alone that is none of their slots. -/
theorem byteAt_afterPushes_other {rs : List RegIndex} {s : State} {a : Nat} (ha : ∀ k, k < rs.length → a ≠ pushSlot s k) :
    byteAt (afterPushes rs s) a = byteAt s a := by
  induction rs generalizing s with
  | nil => rfl
  | cons r rs ih =>
    have h0 : a ≠ pushAddress s := pushAddress_eq_pushSlot s ▸ ha 0 (Nat.succ_pos _)
    have hrest : ∀ k, k < rs.length → a ≠ pushSlot (afterPush s r) k := fun k hk => by
      rw [pushSlot_afterPush]
      exact ha (k + 1) (Nat.succ_lt_succ hk)
    rw [afterPushes, ih hrest, sameMemBut_afterPush s r a h0]

/-- Of at most 256 pushes of registers other than R7, the `k`-th value stays in its slot: the pushes after it have other slots. -/
theorem byteAt_afterPushes_slot {rs : List RegIndex} {s : State} (hwf : s.mem.wf) (hrs : ∀ r ∈ rs, r ≠ spIndex)
    (hlen : rs.length ≤ 256) {k : Nat} {r : RegIndex} (hk : rs[k]? = some r) :
    byteAt (afterPushes rs s) (pushSlot s k) = reg r s := by
  induction rs generalizing s k with
  | nil => cases hk
  | cons q rs ih =>
    rw [List.length_cons] at hlen
    cases k with
    | zero =>
      cases hk
      have hother : ∀ j, j < rs.length → pushSlot s 0 ≠ pushSlot (afterPush s r) j := fun j hj => by
        rw [pushSlot_afterPush]
        exact pushSlot_ne s (Nat.succ_pos j) (by omega)
      rw [afterPushes, byteAt_afterPushes_other hother, ← pushAddress_eq_pushSlot, byteAt_afterPush_self hwf,
        pushedByte, if_neg (hrs r List.mem_cons_self)]
    | succ k =>
      have hrs' : ∀ x ∈ rs, x ≠ spIndex := fun x hx => hrs x (List.mem_cons_of_mem q hx)
      have hr : r ≠ spIndex := hrs' r (List.mem_of_getElem? hk)
      rw [afterPushes, ← pushSlot_afterPush s q, ih (afterPush_wf hwf q) hrs' (by omega) hk, reg_afterPush_other s q hr]

/-- Settles O49, by induction on the list: each push moves SP by one cell and leaves the slots of the others alone. -/
theorem pushesDescend : Obligations.PushesDescend := by
  unfold Obligations.PushesDescend
  exact fun rs s hwf hrs =>
    ⟨_, pushAll_eq rs s, reg_sp_afterPushes rs s, fun hlen _ _ hk => byteAt_afterPushes_slot hwf hrs hlen hk⟩

/-! ### The fetch after a PUSH -/

/-- The fetch after a PUSH reads memory as it was, but for the byte pushed in the cell stored to (20_memory.md R53). -/
theorem byteAtPc_afterPush {s : State} (hwf : s.mem.wf) (r : RegIndex) :
    byteAtPc (afterPush s r) = fun k =>
      if s.pc + 2 + k < 256 then
        some (if s.pc + 2 + k = pushAddress s then pushedByte s r else byteAt s (s.pc + 2 + k))
      else none := by
  funext k
  by_cases hlt : s.pc + 2 + k < 256
  · rw [if_pos hlt, byteAtPc_of_lt hlt]
    refine congrArg some ?_
    by_cases haddr : s.pc + 2 + k = pushAddress s
    · rw [if_pos haddr, ← byteAt_afterPush_self hwf r, ← haddr]
      rfl
    · rw [if_neg haddr, ← sameMemBut_afterPush s r _ haddr]
      rfl
  · rw [if_neg hlt, byteAtPc_of_ge (Nat.le_of_not_lt hlt)]

/-- Settles O50: the step after the PUSH decodes the bytes that the PUSH left; a pushed 0x01 at the pc is a HLT. -/
theorem pushedByteIsFetchedNext : Obligations.PushedByteIsFetchedNext := by
  unfold Obligations.PushedByteIsFetchedNext
  refine ⟨fun s r hs hwf hm hbytes => ?decodes, fun s r hs hwf hm hbytes haddr hone => ?hlt⟩
  case decodes =>
    refine ⟨_, step_push hs hm hbytes, rfl, fun i hdec => ?runs, fun e hdec => ?faults⟩
    case runs => exact step_of_decode_ok hs ((congrArg _ (byteAtPc_afterPush hwf r)).trans hdec)
    case faults => exact step_of_decode_error hs ((congrArg _ (byteAtPc_afterPush hwf r)).trans hdec)
  case hlt =>
    have hpc : (afterPush s r).pc = pushAddress s := haddr.symm
    have hop : byteAt (afterPush s r) (afterPush s r).pc = opcodeHlt := by
      rw [hpc, byteAt_afterPush_self hwf]
      exact hone
    exact ⟨_, _, step_push hs hm hbytes, step_of_hlt_byte hs hm (hpc ▸ pushAddress_lt s) hop, rfl, rfl⟩

end Sys2Proof.Machine
end

section
/-!
SUPPORT. The host's ports (70_reset_and_hazards.md): reset, the load port as a store of bytes, and a run that never ends.
-/

namespace Sys2Proof.Machine

variable {s : State}

/-! ### Reset -/

theorem reg_reset_of_ne_sp : ∀ r : RegIndex, r ≠ 7 → reg r State.reset = 0 := by decide

/-- A memory of zeros lists nothing. -/
theorem Memory.ofFn_zero : Memory.ofFn (fun _ => 0) = [] :=
  List.filterMap_eq_nil_iff.2 fun _ _ => rfl

/-- Settles O42: only memory and the parameters depend on what the machine is built with. -/
theorem resetLeavesSpecValues : Obligations.ResetLeavesSpecValues := by
  unfold Obligations.ResetLeavesSpecValues
  refine ⟨fun p memInit => ?values, ?default⟩
  case values =>
    exact ⟨reg_reset_of_ne_sp, rfl, rfl, rfl, rfl, rfl, rfl, fun _ ha => Memory.get_ofFn memInit ha⟩
  case default =>
    rw [resetWith, Memory.ofFn_zero]
    rfl

/-! ### Stored bytes -/

/-- Bytes stored from `a` upwards leave every other cell alone. -/
theorem get_storeBytes_other {m : Memory} {a x : Nat} {bs : List Byte} (hx : x < a ∨ a + bs.length ≤ x) :
    (storeBytes m a bs).get x = m.get x := by
  induction bs generalizing m a with
  | nil => rfl
  | cons b bs ih =>
    rw [List.length_cons] at hx
    rw [storeBytes, ih (by omega)]
    split
    · exact Memory.get_set_other m b (by omega)
    · rfl

/-- Byte `k` of the bytes stored from `a` upwards stands at `a + k`. -/
theorem get_storeBytes {m : Memory} (hm : m.wf) {a k : Nat} {bs : List Byte} {b : Byte} (hk : bs[k]? = some b)
    (hend : a + bs.length ≤ 256) : (storeBytes m a bs).get (a + k) = b := by
  induction bs generalizing m a k with
  | nil => cases hk
  | cons c bs ih =>
    rw [List.length_cons] at hend
    have ha : a < 256 := by omega
    rw [storeBytes, if_pos ha]
    cases k with
    | zero =>
      cases hk
      exact (get_storeBytes_other (.inl (Nat.lt_add_one a))).trans (Memory.get_set_self hm a b)
    | succ k =>
      rw [← Nat.add_assoc, Nat.add_right_comm]
      exact ih (Memory.set_wf hm ha c) hk (by omega)

/-! ### The load port -/

/-- A call of the load port with an address in range sets its cell. -/
theorem loadWrite_of_lt {a : Nat} (ha : a < 256) (b : Byte) : loadWrite a b.toNat s = .ok (setMem (s.mem.set a b) s) := by
  simp only [loadWrite, memWrite_byte ha]

/-- A call with an address out of range is refused with that address. -/
theorem loadWrite_of_ge {a : Nat} (ha : 256 ≤ a) (v : Nat) : loadWrite a v s = .error (.address a) := by
  simp only [loadWrite, memWrite_of_address_ge ha]

/-- A load whose first bytes fit stores them and goes on after them. -/
theorem loadFrom_append {a : Nat} {xs : List Byte} (ys : List Byte) (s : State) (hend : a + xs.length ≤ 256) :
    loadFrom a (xs ++ ys) s = loadFrom (a + xs.length) ys (setMem (storeBytes s.mem a xs) s) := by
  induction xs generalizing a s with
  | nil => rfl
  | cons x xs ih =>
    rw [List.length_cons] at hend
    have ha : a < 256 := by omega
    simp only [List.cons_append, loadFrom, loadWrite_of_lt ha, storeBytes, if_pos ha, List.length_cons]
    rw [ih _ (by omega), Nat.add_right_comm, ← Nat.add_assoc]
    rfl

/-- A program that fits is stored from address 0 upwards, and none of its calls is refused. -/
theorem loadProgram_of_fits {program : List Byte} (h : program.length ≤ 256) (s : State) :
    loadProgram program s = (setMem (storeBytes s.mem 0 program) s, none) := by
  have := loadFrom_append (a := 0) [] s (by rwa [Nat.zero_add])
  rwa [List.append_nil] at this

/-- Settles O52: the load is a store of the program's bytes. -/
theorem loadPlacesProgram : Obligations.LoadPlacesProgram := by
  unfold Obligations.LoadPlacesProgram
  intro s program hwf hlen
  refine ⟨_, loadProgram_of_fits hlen s, fun k b hk => ?placed, fun a ha => ?rest, fun _ _ => rfl, rfl, rfl, rfl, rfl, rfl⟩
  case placed =>
    have hget := get_storeBytes hwf (a := 0) hk (by rwa [Nat.zero_add])
    rwa [Nat.zero_add] at hget
  case rest => exact get_storeBytes_other (.inr (by rwa [Nat.zero_add]))

/-- Settles O53: the first 256 bytes are stored, and the call for the next one has address 256. -/
theorem loadRefusesByte257 : Obligations.LoadRefusesByte257 := by
  unfold Obligations.LoadRefusesByte257
  intro s program _ hlen
  have hfirst : (program.take 256).length = 256 := List.length_take_of_le hlen.le
  refine ⟨_, ?refused, loadProgram_of_fits hfirst.le s, rfl⟩
  case refused =>
    obtain ⟨b, bs, hrest⟩ : ∃ b bs, program.drop 256 = b :: bs :=
      List.exists_cons_of_length_pos (by rw [List.length_drop]; omega)
    have happend := loadFrom_append (a := 0) (program.drop 256) s (xs := program.take 256) (by omega)
    rw [List.take_append_drop, hfirst, hrest] at happend
    rw [loadProgram, happend, loadFrom, loadWrite_of_ge (by decide)]

/-! ### A run that never ends -/

/-- Jumping to the pc changes nothing. -/
theorem jumpTo_pc_self {target : Byte} (h : target.toNat = s.pc) : jumpTo target s = s := by
  rw [jumpTo, h]

/-- A machine whose step answers its own state completes every number of steps there. -/
theorem core_run_of_step_self (h : step s = .next s) (k : Nat) : Host.Core.run Sys2Proof.core k s = .next s := by
  induction k with
  | zero => rfl
  | succ k ih =>
    have hcore : Host.Core.step Sys2Proof.core s = .next s := h
    simp only [Host.Core.run, hcore]
    exact ih

/-- So does the run loop. -/
theorem runFor_of_step_self (h : step s = .next s) (k : Nat) : runFor k s = s := by
  induction k with
  | zero => rfl
  | succ k ih => rw [runFor_succ h, ih]

/-- Settles O51: the JMP writes the pc that is there, so that the step answers its own state. -/
theorem jumpToSelfNeverEnds : Obligations.JumpToSelfNeverEnds := by
  unfold Obligations.JumpToSelfNeverEnds
  intro s r hs hm hbytes hself
  have hstep : step s = .next s := by
    rw [step_of_holdsBytes hs hm hbytes, exec_jmp_operandByte, jumpTo_pc_self hself]
  exact ⟨hstep, fun k => ⟨core_run_of_step_self hstep k, runFor_of_step_self hstep k⟩⟩

end Sys2Proof.Machine
end
